-- ==== Sys2Proof/Word.lean ====
section
/-! DEFINITION. The block's plain value types and its fixed sets of names (opcodes, operand formats, readable
registers). Rules: 00_scope.md R8, R9, R12; 10_state.md R47; 30_encoding.md R81, R82, R85. -/

namespace Sys2Proof

/-- A command word, 32 bits (30_encoding.md R81). -/
abbrev Word := BitVec 32
/-- An entropy byte or a character code, 8 bits (30_encoding.md R83). -/
abbrev Byte := BitVec 8
/-- A chunk, 11 bits, value in [0, 2047] (00_scope.md R8). -/
abbrev Chunk := BitVec 11
/-- A 16-bit response or operand value (30_encoding.md R81, R89). -/
abbrev Half := BitVec 16
/-- A digest of the hash port, 256 bits (20_memory.md R64). -/
abbrev Digest := BitVec 256

/-- The twelve mnemonics of BCU-1 (30_encoding.md R85). -/
inductive Op where
  | nop | rst | eclr | ebyte | efin | cksum | merge | rdchk | setwl | dchar | dclr | rdreg
  deriving DecidableEq, Repr

/-- The five operand formats (30_encoding.md R82). -/
inductive Format where
  | z | b | x5 | r4 | h
  deriving DecidableEq, Repr

/-- The sixteen registers that RDREG reads, by the names of 10_state.md R47. -/
inductive Reg where
  | status | elen | need | acc | nchunk | left | csbits | dmsb | cs | wlen | ndice | dcnt
  | daccLo | daccMid | daccHi | didx
  deriving DecidableEq, Repr

end Sys2Proof
end

