-- ==== Sys2Proof/Machine/State.lean ====
section
/-! DEFINITION. The state of the block: every element of 10_state.md R23, in the groups the rules use (entropy path,
dice path, fault unit), and beside it the interface of 20_memory.md R62 as plain data. -/

namespace Sys2Proof.Machine

/-- The entropy-path elements (10_state.md R24..R37). An array entry that holds no value is `none` (R52). -/
structure EntropyPath where
  /-- EBUF[0..31], the entropy buffer (R24). -/
  ebuf : Vector (Option Byte) 32
  /-- ELEN, the entropy bytes accepted (R25). -/
  elen : BitVec 6
  /-- ACC, the chunker's accumulator (R26). -/
  acc : Chunk
  /-- NEED, the bits needed to complete the current chunk (R27). -/
  need : BitVec 4
  /-- CHUNK[0..23], the chunk buffer (R29). -/
  chunk : Vector (Option Chunk) 24
  /-- NCHUNK, the valid CHUNK entries (R30). -/
  nchunk : BitVec 5
  /-- LEFT, the leftover-bit count (R31). -/
  left : BitVec 4
  /-- FIN, chunker finished (R32). -/
  fin : Bool
  /-- CSBITS, the checksum-bit count (R33). -/
  csbits : BitVec 4
  /-- DMSB, the digest's most significant byte (R34). -/
  dmsb : Byte
  /-- CS, the checksum bits, right-aligned (R35). -/
  cs : Byte
  /-- CSV, checksum valid (R36). -/
  csv : Bool
  /-- MRG, checksum merged (R37). -/
  mrg : Bool
  deriving DecidableEq, Repr

/-- The dice-path elements (10_state.md R38..R44). -/
structure DicePath where
  /-- WLEN, the wordlist length; 0 is not configured (R38). -/
  wlen : Half
  /-- WLV, wordlist configured (R39). -/
  wlv : Bool
  /-- NDICE, the throws per word (R40). -/
  ndice : BitVec 4
  /-- DACC, the base-6 accumulator (R41). -/
  dacc : BitVec 40
  /-- DCNT, the per-word digit counter (R42). -/
  dcnt : BitVec 4
  /-- DIDX, the index of the last completed word (R43). -/
  didx : Half
  /-- DV, dice index valid (R44). -/
  dv : Bool
  deriving DecidableEq, Repr

/-- The fault elements (10_state.md R45, R46). -/
structure FaultUnit where
  /-- FAULT, the sticky fault flag (R45). -/
  fault : Bool
  /-- FCAUSE, the cause code (R46). -/
  fcause : BitVec 4
  deriving DecidableEq, Repr

/-- The fault causes that a command can raise (60_exceptions.md R160); code 0 is no fault. -/
inductive Cause where
  | illegalCmd | sequence | entropyOverflow | badEntropyLen | badIndex | badWlen | checksumMismatch
  deriving DecidableEq, Repr

/-- What the host does next at the block's ports (20_memory.md R62, R63; 70_reset_and_hazards.md R171). -/
inductive HostEvent where
  /-- The host sends a command word, and waits for its response. -/
  | command (w : Word)
  /-- RST_N goes low, with no command outstanding (`none`) or while the given word is outstanding: that command is
  abandoned and gets no response (R171). -/
  | reset (abandoned : Option Word)
  deriving DecidableEq, Repr

/-- One response of the response port (30_encoding.md R89). -/
structure Response where
  /-- RSP_ERR. -/
  err : Bool
  /-- RSP_DATA. -/
  data : Half
  deriving DecidableEq, Repr

/-- Which function HASH is wired to the hash port (00_scope.md R10; log entry 3). -/
inductive HashUnit where
  /-- The spec's default, SHA-256. -/
  | sha256
  /-- Some other total function, `Config.externalHash n`, of which nothing is known. -/
  | external (n : Nat)
  deriving DecidableEq, Repr

/-- The machine: the block's elements (10_state.md R23) and its ports. -/
structure State where
  ent : EntropyPath
  dice : DicePath
  flt : FaultUnit
  /-- The MODEL's own field: what the host does next, oldest first (log entry 1). -/
  inputs : List HostEvent
  /-- The MODEL's own field: the response the last step delivered, if it delivered one (log entry 2). -/
  rsp : Option Response
  /-- The MODEL's own field: the hash function at the hash port (log entry 3). -/
  hashUnit : HashUnit
  deriving DecidableEq, Repr

/-- The stops of the MODEL (the block's own faults are next states, 60_exceptions.md R163). Each needs a state that
10_state.md R51 excludes, for which the rules' pseudocode has no meaning. All are safe (log entry 7). -/
inductive Fault where
  /-- A write past the last entry of EBUF or CHUNK. Raised by EBYTE with ELEN > 32, or by EBYTE or EFIN where a chunk
  would go to CHUNK[24] or beyond. Safe: no state that meets R51 raises it. -/
  | noEntry
  /-- A read of an array entry that holds no value (R52). Raised by CKSUM with an absent entry below ELEN and by MERGE
  with an absent entry at NCHUNK-1. Safe: no state that meets R51 raises it. -/
  | noValue
  /-- A reduction modulo 0 (00_scope.md R13 takes `x mod y` with y > 0). Raised by DCHAR when it completes a word with
  WLEN = 0. Safe: no state that meets R51 raises it. -/
  | zeroModulus
  deriving DecidableEq, Repr

/-- The refusals of the MODEL. -/
inductive Refusal where
  /-- An instruction with no meaning yet: raised by no arm of this model. Safe. -/
  | notModelled (mnemonic : String)
  /-- The host has sent nothing: raised by `step` when `inputs` is empty, for "the model has no step for a missing
  command" (93_implementation_defined.md U5). Safe (log entry 5). -/
  | noCommand
  deriving DecidableEq, Repr

/-- The entropy path after reset (10_state.md R23, R52). -/
def EntropyPath.reset : EntropyPath where
  ebuf := Vector.replicate 32 none
  elen := 0
  acc := 0
  need := 11
  chunk := Vector.replicate 24 none
  nchunk := 0
  left := 0
  fin := false
  csbits := 0
  dmsb := 0
  cs := 0
  csv := false
  mrg := false

/-- The dice path after reset (10_state.md R23). -/
def DicePath.reset : DicePath where
  wlen := 0
  wlv := false
  ndice := 0
  dacc := 0
  dcnt := 0
  didx := 0
  dv := false

/-- The fault elements after reset (10_state.md R23). -/
def FaultUnit.reset : FaultUnit where
  fault := false
  fcause := 0

/-- The machine right after reset (70_reset_and_hazards.md R171, R172). The last three fields are the model's: no
event pending, no response delivered, the default hash (log entries 1 to 3). -/
def State.reset : State where
  ent := .reset
  dice := .reset
  flt := .reset
  inputs := []
  rsp := none
  hashUnit := .sha256

/-- The outcome type of every meaning and of the step. -/
abbrev Result := Host.Outcome State Fault Refusal

end Sys2Proof.Machine
end

