-- ==== Sys2Proof/Machine/Flags.lean ====
section
/-! DEFINITION. The flags: the STATUS word that shows them (10_state.md R48) and the checks that the phase flags decide
(41_chunker.md R122). -/

namespace Sys2Proof.Machine

/-- The STATUS register, most significant field first: reserved, FCAUSE, reserved, FAULT, DV, WLV, MRG, CSV, FIN
(10_state.md R48). -/
def statusWord (s : State) : Half :=
  (0 : BitVec 4) ++ s.flt.fcause ++ (0 : BitVec 2) ++ BitVec.ofBool s.flt.fault ++ BitVec.ofBool s.dice.dv
    ++ BitVec.ofBool s.dice.wlv ++ BitVec.ofBool s.ent.mrg ++ BitVec.ofBool s.ent.csv ++ BitVec.ofBool s.ent.fin

/-- EBYTE and EFIN are in phase: FIN = 0 (41_chunker.md R122). -/
def chunkerOpen (e : EntropyPath) : Bool := !e.fin
/-- CKSUM is in phase: FIN = 1 and CSV = 0 (41_chunker.md R122, 40_checksum.md R110). -/
def checksumDue (e : EntropyPath) : Bool := e.fin && !e.csv
/-- MERGE is in phase: CSV = 1 and MRG = 0 (41_chunker.md R122, 42_entropy_mapper.md R130). -/
def mergeDue (e : EntropyPath) : Bool := e.csv && !e.mrg

end Sys2Proof.Machine
end

