-- ==== Sys2Proof/Machine/Operands.lean ====
section
/-! DEFINITION. What operands name and what they stand for: the register map of RDREG, valid entropy lengths, die
faces, legal wordlist lengths; and the layouts of the responses (30_encoding.md R89). -/

namespace Sys2Proof.Machine

/-- REG(r), the register map (10_state.md R47..R49). -/
def readReg (r : Reg) (s : State) : Half :=
  match r with
  | .status => statusWord s
  | .elen => s.ent.elen.setWidth 16
  | .need => s.ent.need.setWidth 16
  | .acc => s.ent.acc.setWidth 16
  | .nchunk => s.ent.nchunk.setWidth 16
  | .left => s.ent.left.setWidth 16
  | .csbits => s.ent.csbits.setWidth 16
  | .dmsb => s.ent.dmsb.setWidth 16
  | .cs => s.ent.cs.setWidth 16
  | .wlen => s.dice.wlen
  | .ndice => s.dice.ndice.setWidth 16
  | .dcnt => s.dice.dcnt.setWidth 16
  | .daccLo => s.dice.dacc.extractLsb' 0 16
  | .daccMid => s.dice.dacc.extractLsb' 16 16
  | .daccHi => (s.dice.dacc.extractLsb' 32 8).setWidth 16
  | .didx => s.dice.didx

/-- The valid entropy lengths in bytes (00_scope.md R8, 40_checksum.md R108). -/
def validEntropyLen (n : Nat) : Bool := n ∈ [16, 20, 24, 28, 32]

/-- The digit of a die face '1'..'6', codes 0x31..0x36; `none` for every other character (43_dice.md R140). -/
def faceDigit (c : Byte) : Option Nat :=
  if c.toNat < 0x31 || 0x36 < c.toNat then none else some (c.toNat - 0x31)

/-- The exponent of a factor p in n, looking for at most `fuel` of them. -/
def exponent (p : Nat) : Nat → Nat → Nat
  | 0, _ => 0
  | fuel + 1, n => if n % p = 0 then exponent p fuel (n / p) + 1 else 0

/-- The exponents (a, b) of 2 and 3 in a 16-bit length: 2^16 and 3^11 exceed 65535. -/
def exponents (len : Half) : Nat × Nat := (exponent 2 15 len.toNat, exponent 3 10 len.toNat)

/-- L is legal: 2 ≤ L (a 16-bit L is at most 65535) and L = 2^a · 3^b (43_dice.md R139). -/
def legalLength (len : Half) : Bool :=
  2 ≤ len.toNat && len.toNat == 2 ^ (exponents len).1 * 3 ^ (exponents len).2

/-- N(L) = max(a, b) (43_dice.md R139). -/
def diceCount (len : Half) : Nat := max (exponents len).1 (exponents len).2

/-! ### Response layouts (30_encoding.md R89) -/

/-- EBYTE: bit 15 set and the chunk, if the byte completed one. -/
def ebyteData (done : Option Chunk) : Half :=
  BitVec.ofBool done.isSome ++ (0 : BitVec 4) ++ done.getD 0

/-- EFIN: bit 15 set if a partial chunk was emitted, NCHUNK and LEFT after. -/
def efinData (partialChunk : Bool) (nchunk : BitVec 5) (left : BitVec 4) : Half :=
  BitVec.ofBool partialChunk ++ (0 : BitVec 6) ++ nchunk ++ left

/-- CKSUM: CSBITS and CS. -/
def cksumData (csbits : BitVec 4) (cs : Byte) : Half := (0 : BitVec 4) ++ csbits ++ cs

/-- DCHAR: bit 1 if the character completed a word, bit 0 if it was accepted as a digit. -/
def dcharData (completed accepted : Bool) : Half :=
  (0 : BitVec 14) ++ BitVec.ofBool completed ++ BitVec.ofBool accepted

end Sys2Proof.Machine
end

