-- ==== Sys2Proof/Config.lean ====
section
/-! DEFINITION. What an implementation or the platform fixes and the spec leaves open. Each is a constant with no
body, so no proof can use a value of it. -/

namespace Sys2Proof.Config

/-- The parameter HASH for hash units other than the default (00_scope.md R10, 92_eei_decisions.md D10): for each
number of a unit, some total function from a byte string to a 256-bit digest. Log entry 3. -/
opaque externalHash : Nat → List Byte → Digest

/-- CMD_LATENCY, the clock cycles from a command's acceptance to its response (00_scope.md R11). It may differ per
command (70_reset_and_hazards.md R177), so it is given per accepted command. No rule depends on it and nothing in the
model reads it. Log entry 9. -/
opaque cmdLatency : Nat → Nat

/-- BCU_BASE, the block's address if the platform maps it into memory (20_memory.md R70). No rule depends on it and
nothing in the model reads it. Log entry 9. -/
opaque bcuBase : Nat

end Sys2Proof.Config
end

