-- ==== Sys2Proof/Syntax.lean ====
section
/-! DEFINITION. The commands of BCU-1: one constructor for each row of spec/opcode_table.json, with its operand as
the unsigned field 30_encoding.md R82 and R83 give it. An operand has its field's own width, so every term is a
command; which WORDS spell a command is WellFormed.lean's question (R84). -/

namespace Sys2Proof

/-- A command (30_encoding.md R85). -/
inductive Instr where
  /-- `NOP` (44_control.md R150). -/
  | nop
  /-- `RST` (44_control.md R151). -/
  | rst
  /-- `ECLR` (41_chunker.md R119). -/
  | eclr
  /-- `EBYTE b` (41_chunker.md R120). -/
  | ebyte (b : Byte)
  /-- `EFIN` (41_chunker.md R121). -/
  | efin
  /-- `CKSUM` (40_checksum.md R110). -/
  | cksum
  /-- `MERGE` (42_entropy_mapper.md R130). -/
  | merge
  /-- `RDCHK i` (42_entropy_mapper.md R131). -/
  | rdchk (i : BitVec 5)
  /-- `SETWL L` (43_dice.md R142). -/
  | setwl (len : Half)
  /-- `DCHAR c` (43_dice.md R140). -/
  | dchar (c : Byte)
  /-- `DCLR` (43_dice.md R143). -/
  | dclr
  /-- `RDREG r` (44_control.md R152). -/
  | rdreg (r : Reg)
  deriving DecidableEq, Repr

end Sys2Proof
end

