-- ==== Sys2Proof/Decode.lean ====
section
/-! DEFINITION. The decoder, total on every 32-bit word and rejecting by name (30_encoding.md R84..R88), and after it
the encoder, written from the same tables (R81, R82, R85). Decoding never depends on state (R88). -/

namespace Sys2Proof

/-- Why a word spells no command (30_encoding.md R86). The block raises ILLEGAL_CMD for all three alike. -/
inductive DecodeError where
  /-- OP in 0xC..0xF. -/
  | reservedOpcode
  /-- A bit of RSV is set. -/
  | reservedBits
  /-- A bit of IMM outside the format's operand field is set. -/
  | strayImmediate
  deriving DecidableEq, Repr

/-- OP = CMD[31:28] (30_encoding.md R81). -/
def opField (w : Word) : BitVec 4 := w.extractLsb' 28 4
/-- RSV = CMD[27:16] (30_encoding.md R81). -/
def rsvField (w : Word) : BitVec 12 := w.extractLsb' 16 12
/-- IMM = CMD[15:0] (30_encoding.md R81). -/
def immField (w : Word) : Half := w.extractLsb' 0 16

/-- The opcode map: the mnemonic of an OP value; 0xC to 0xF are reserved (30_encoding.md R85, R86). -/
def Op.ofCode (c : BitVec 4) : Option Op :=
  match c.toNat with
  | 0x0 => some .nop
  | 0x1 => some .rst
  | 0x2 => some .eclr
  | 0x3 => some .ebyte
  | 0x4 => some .efin
  | 0x5 => some .cksum
  | 0x6 => some .merge
  | 0x7 => some .rdchk
  | 0x8 => some .setwl
  | 0x9 => some .dchar
  | 0xA => some .dclr
  | 0xB => some .rdreg
  | _ => none

/-- IMASK, the operand bits of IMM in a format (30_encoding.md R82). -/
def Format.imask : Format → Half
  | .z => 0x0000
  | .b => 0x00FF
  | .x5 => 0x001F
  | .r4 => 0x000F
  | .h => 0xFFFF

/-- The mnemonic of a command (30_encoding.md R85). -/
def Instr.op : Instr → Op
  | .nop => .nop
  | .rst => .rst
  | .eclr => .eclr
  | .ebyte _ => .ebyte
  | .efin => .efin
  | .cksum => .cksum
  | .merge => .merge
  | .rdchk _ => .rdchk
  | .setwl _ => .setwl
  | .dchar _ => .dchar
  | .dclr => .dclr
  | .rdreg _ => .rdreg

/-- The operand format of a mnemonic (30_encoding.md R82, R85). -/
def Op.format : Op → Format
  | .nop | .rst | .eclr | .efin | .cksum | .merge | .dclr => .z
  | .ebyte | .dchar => .b
  | .rdchk => .x5
  | .rdreg => .r4
  | .setwl => .h

/-- The register of a number: every r is defined (10_state.md R47). -/
def Reg.ofNumber (r : BitVec 4) : Reg :=
  match r.toNat with
  | 0 => .status
  | 1 => .elen
  | 2 => .need
  | 3 => .acc
  | 4 => .nchunk
  | 5 => .left
  | 6 => .csbits
  | 7 => .dmsb
  | 8 => .cs
  | 9 => .wlen
  | 10 => .ndice
  | 11 => .dcnt
  | 12 => .daccLo
  | 13 => .daccMid
  | 14 => .daccHi
  | _ => .didx

/-- The command of a mnemonic, its operand taken as is from the low bits of IMM (30_encoding.md R82, R83). -/
def Op.toInstr (op : Op) (imm : Half) : Instr :=
  match op with
  | .nop => .nop
  | .rst => .rst
  | .eclr => .eclr
  | .ebyte => .ebyte (imm.extractLsb' 0 8)
  | .efin => .efin
  | .cksum => .cksum
  | .merge => .merge
  | .rdchk => .rdchk (imm.extractLsb' 0 5)
  | .setwl => .setwl imm
  | .dchar => .dchar (imm.extractLsb' 0 8)
  | .dclr => .dclr
  | .rdreg => .rdreg (Reg.ofNumber (imm.extractLsb' 0 4))

/-- The decoder: the checks in the order `step` of 30_encoding.md R87 writes them, then the command. -/
def decode (w : Word) : Except DecodeError Instr :=
  match Op.ofCode (opField w) with
  | none => .error .reservedOpcode
  | some op =>
    if rsvField w ≠ 0 then .error .reservedBits
    else if immField w &&& ~~~ op.format.imask ≠ 0 then .error .strayImmediate
    else .ok (op.toInstr (immField w))

/-- The OP value of a mnemonic (30_encoding.md R85). -/
def Op.code : Op → BitVec 4
  | .nop => 0x0
  | .rst => 0x1
  | .eclr => 0x2
  | .ebyte => 0x3
  | .efin => 0x4
  | .cksum => 0x5
  | .merge => 0x6
  | .rdchk => 0x7
  | .setwl => 0x8
  | .dchar => 0x9
  | .dclr => 0xA
  | .rdreg => 0xB

/-- The number of a register (10_state.md R47). -/
def Reg.number : Reg → BitVec 4
  | .status => 0
  | .elen => 1
  | .need => 2
  | .acc => 3
  | .nchunk => 4
  | .left => 5
  | .csbits => 6
  | .dmsb => 7
  | .cs => 8
  | .wlen => 9
  | .ndice => 10
  | .dcnt => 11
  | .daccLo => 12
  | .daccMid => 13
  | .daccHi => 14
  | .didx => 15

/-- The IMM field that carries a command's operand; every other bit is 0 (30_encoding.md R82). -/
def Instr.imm : Instr → Half
  | .ebyte b => b.setWidth 16
  | .rdchk i => i.setWidth 16
  | .setwl len => len
  | .dchar c => c.setWidth 16
  | .rdreg r => r.number.setWidth 16
  | .nop | .rst | .eclr | .efin | .cksum | .merge | .dclr => 0

/-- The word of a command: OP, RSV = 0, IMM (30_encoding.md R81). -/
def encode (i : Instr) : Word := i.op.code ++ (0 : BitVec 12) ++ i.imm

/-- The match column of the opcode map (30_encoding.md R85). -/
def Op.matchWord (op : Op) : Word := op.code ++ (0 : BitVec 28)

/-- The mask column of the opcode map (30_encoding.md R85): every bit but the operand's. -/
def Op.maskWord (op : Op) : Word := ~~~ op.format.imask.setWidth 32

/-- A row of spec/opcode_table.json as a word: its bits above `nbits` are 0. -/
def tableWord (nbits w : Nat) : Word := BitVec.ofNat 32 (w % 2 ^ nbits)

/-- The host's question: the command the decoder reads from a word of the opcode table. -/
def decodeTableWord (nbits w : Nat) : Option Instr := (decode (tableWord nbits w)).toOption

end Sys2Proof
end

