-- ==== Sys2Proof/Machine/Sha256.lean ====
section
/-! DEFINITION. SHA-256, the default of the parameter HASH (00_scope.md R10). The spec names the function and does not
write it out; what follows is PRESUMED, from FIPS 180-4 (log entry 4). The constants are computed from what that
standard says they are, bits of roots of primes, and not listed. -/

namespace Sys2Proof.Machine.Sha256

/-! ### The constants -/

/-- The k-th root of x, rounded down, one bit at a time: `r` holds the bits from n up, and n bits are still to come. -/
def rootFrom (k x : Nat) : Nat → Nat → Nat
  | 0, r => r
  | n + 1, r => rootFrom k x n (if (r + 2 ^ n) ^ k ≤ x then r + 2 ^ n else r)

/-- The first 32 bits of the fractional part of the k-th root of p, for a root below 16. -/
def rootFraction (k p : Nat) : Word := BitVec.ofNat 32 (rootFrom k (p * 2 ^ (32 * k)) 36 0)

/-- The primes below 312, of which there are 64: a composite number there has a divisor below 18. -/
def primes : List Nat :=
  (List.range 312).filter fun p => 2 ≤ p && (List.range 18).all fun d => d < 2 || p ≤ d || p % d != 0

/-- The constant of each round, from the cube roots of the primes. -/
def roundConstants : List Word := primes.map (rootFraction 3)

/-! ### The chaining value -/

/-- Four words, the youngest first. A round replaces the youngest and forgets the oldest. -/
structure Queue where
  q0 : Word
  q1 : Word
  q2 : Word
  q3 : Word
  deriving DecidableEq, Repr

/-- Put a word in front, drop the last. -/
def Queue.push (q : Queue) (w : Word) : Queue := { q0 := w, q1 := q.q0, q2 := q.q1, q3 := q.q2 }

/-- Add word by word. -/
def Queue.add (p q : Queue) : Queue :=
  { q0 := p.q0 + q.q0, q1 := p.q1 + q.q1, q2 := p.q2 + q.q2, q3 := p.q3 + q.q3 }

/-- Four words as 128 bits, the youngest most significant. -/
def Queue.bits (q : Queue) : BitVec 128 := q.q0 ++ q.q1 ++ q.q2 ++ q.q3

/-- The standard's words a to d are `left`, its words e to h are `right`. -/
structure Chain where
  left : Queue
  right : Queue
  deriving DecidableEq, Repr

/-- The queue of four square roots. -/
def rootQueue (p0 p1 p2 p3 : Nat) : Queue :=
  { q0 := rootFraction 2 p0, q1 := rootFraction 2 p1, q2 := rootFraction 2 p2, q3 := rootFraction 2 p3 }

/-- The initial value, from the square roots of the first eight primes. -/
def initial : Chain := { left := rootQueue 2 3 5 7, right := rootQueue 11 13 17 19 }

/-! ### One block -/

/-- The exclusive or of a word's right rotations by these amounts. -/
def rotations (amounts : List Nat) (w : Word) : Word :=
  amounts.foldr (fun n sum => w.rotateRight n ^^^ sum) 0

/-- What a round adds to the queue on the right: each bit of the youngest word picks one of the next two. -/
def rightSum (q : Queue) : Word := rotations [6, 11, 25] q.q0 + (q.q2 ^^^ (q.q0 &&& (q.q1 ^^^ q.q2)))

/-- What a round adds for the queue on the left: the bits that at least two of the three youngest words have. -/
def leftSum (q : Queue) : Word := rotations [2, 13, 22] q.q0 + ((q.q0 &&& (q.q1 ||| q.q2)) ||| (q.q1 &&& q.q2))

/-- The schedule word sixteen places after the head of a window of sixteen. -/
def nextScheduleWord (window : List Word) : Word :=
  let near := window.getD 14 0
  let far := window.getD 1 0
  (rotations [17, 19] near ^^^ (near >>> 10)) + (rotations [7, 18] far ^^^ (far >>> 3)) + window.getD 9 0
    + window.getD 0 0

/-- The schedule words, as many as the first argument says, from a window of the next sixteen. -/
def schedule : Nat → List Word → List Word
  | 0, _ => []
  | n + 1, window => window.getD 0 0 :: schedule n (window.drop 1 ++ [nextScheduleWord window])

/-- One round, with the sum of its constant and its schedule word. -/
def round (c : Chain) (input : Word) : Chain :=
  let sum := c.right.q3 + input + rightSum c.right
  { left := c.left.push (sum + leftSum c.left), right := c.right.push (c.left.q3 + sum) }

/-- Fold one block of sixteen words into the chaining value. -/
def absorb (c : Chain) (block : List Word) : Chain :=
  let last := (List.zipWith (· + ·) roundConstants (schedule 64 block)).foldl round c
  { left := c.left.add last.left, right := c.right.add last.right }

/-! ### A whole message -/

/-- The padded message in bytes: 0x80, zeros up to 8 bytes before a multiple of 64, and the length in bits, its most
significant byte first. -/
def pad (m : List Byte) : List Byte :=
  m ++ 0x80 :: List.replicate ((119 - m.length % 64) % 64) 0
    ++ [7, 6, 5, 4, 3, 2, 1, 0].map fun i => BitVec.ofNat 8 (8 * m.length / 256 ^ i)

/-- Word i of a byte string, its first byte most significant. -/
def wordAt (bytes : List Byte) (i : Nat) : Word :=
  bytes.getD (4 * i) 0 ++ bytes.getD (4 * i + 1) 0 ++ bytes.getD (4 * i + 2) 0 ++ bytes.getD (4 * i + 3) 0

/-- Block j of a byte string. -/
def blockAt (bytes : List Byte) (j : Nat) : List Word := (List.range 16).map fun i => wordAt bytes (16 * j + i)

/-- The digest of a byte string; its first byte is bits 255 to 248. -/
def digest (m : List Byte) : Digest :=
  let bytes := pad m
  let last := ((List.range (bytes.length / 64)).map (blockAt bytes)).foldl absorb initial
  last.left.bits ++ last.right.bits

end Sys2Proof.Machine.Sha256
end

