-- ==== Sys2Proof/Machine/Ops.lean ====
section
/-! DEFINITION. The operations every command is written over: replacing one group of elements, responding, fault entry
and refusal, reset, the two arrays, the hash port, and the admission of a command word. -/

namespace Sys2Proof.Machine

/-! ### One update for each part of the state -/

/-- Replace the entropy-path elements. -/
def State.setEnt (s : State) (e : EntropyPath) : State := { s with ent := e }
/-- Replace the dice-path elements. -/
def State.setDice (s : State) (d : DicePath) : State := { s with dice := d }
/-- Replace the fault elements. -/
def State.setFlt (s : State) (f : FaultUnit) : State := { s with flt := f }
/-- Replace the pending host events. -/
def State.setInputs (s : State) (l : List HostEvent) : State := { s with inputs := l }
/-- Replace the delivered response. -/
def State.setRsp (s : State) (r : Option Response) : State := { s with rsp := r }

/-! ### Responses, faults and reset -/

/-- The code of a cause (60_exceptions.md R160). -/
def Cause.code : Cause → BitVec 4
  | .illegalCmd => 1
  | .sequence => 2
  | .entropyOverflow => 3
  | .badEntropyLen => 4
  | .badIndex => 5
  | .badWlen => 6
  | .checksumMismatch => 7

/-- `respond(err, data)`: the command's single response (00_scope.md R13, 30_encoding.md R89). -/
def respond (err : Bool) (data : Half) (s : State) : State := s.setRsp (some ⟨err, data⟩)

/-- `raise Fault(c)`, fault entry: FAULT, FCAUSE and the response, and nothing else (60_exceptions.md R163). The
meanings call it before any write, so there is no write to discard. -/
def raise (c : Cause) (s : State) : State :=
  respond true (c.code.setWidth 16) (s.setFlt { fault := true, fcause := c.code })

/-- A refused command: no state changes, the response carries the first fault's cause (60_exceptions.md R164). -/
def refuse (s : State) : State := respond true (s.flt.fcause.setWidth 16) s

/-- Reset, the only return from the fault state: every element takes its reset value
(70_reset_and_hazards.md R171, 60_exceptions.md R165). -/
def resetElements (s : State) : State :=
  ((s.setEnt .reset).setDice .reset).setFlt .reset

/-- The hardware reset, RST_N low: as `resetElements`, and a command that was outstanding gets no response
(70_reset_and_hazards.md R171). -/
def hardwareReset (s : State) : State := (resetElements s).setRsp none

/-- The block accepts a command; its response is still to come (20_memory.md R63). -/
def accept (rest : List HostEvent) (s : State) : State := (s.setInputs rest).setRsp none

/-! ### The arrays EBUF and CHUNK (20_memory.md R61) -/

/-- `EBUF[i]`; `none` where the entry holds no value or does not exist (10_state.md R52). -/
def readEbuf (e : EntropyPath) (i : Nat) : Option Byte := e.ebuf[i]?.join

/-- `EBUF[i] <- b`; `none` where the array has no entry i. -/
def writeEbuf (e : EntropyPath) (i : Nat) (b : Byte) : Option EntropyPath :=
  if h : i < 32 then some { e with ebuf := e.ebuf.set i (some b) h } else none

/-- `CHUNK[i]`; `none` where the entry holds no value or does not exist (10_state.md R52). -/
def readChunk (e : EntropyPath) (i : Nat) : Option Chunk := e.chunk[i]?.join

/-- `CHUNK[i] <- v`; `none` where the array has no entry i. -/
def writeChunk (e : EntropyPath) (i : Nat) (v : Chunk) : Option EntropyPath :=
  if h : i < 24 then some { e with chunk := e.chunk.set i (some v) h } else none

/-- Emit a chunk: `CHUNK[NCHUNK] <- v; NCHUNK <- NCHUNK + 1` (41_chunker.md R120, R121). -/
def emitChunk (v : Chunk) (e : EntropyPath) : Option EntropyPath :=
  (writeChunk e e.nchunk.toNat v).map fun e' => { e' with nchunk := BitVec.ofNat 5 (e.nchunk.toNat + 1) }

/-- Append a byte: `EBUF[ELEN] <- b; ELEN <- ELEN + 1` (41_chunker.md R120). -/
def appendByte (b : Byte) (e : EntropyPath) : Option EntropyPath :=
  (writeEbuf e e.elen.toNat b).map fun e' => { e' with elen := BitVec.ofNat 6 (e.elen.toNat + 1) }

/-! ### The hash port (20_memory.md R64) -/

/-- The message M = EBUF[0], ..., EBUF[ELEN-1]; `none` where one of these entries holds no value. -/
def message (e : EntropyPath) : Option (List Byte) := (List.range e.elen.toNat).mapM (readEbuf e)

/-- D = HASH(M): a total function of the message alone (20_memory.md R64, 00_scope.md R10). -/
def hashDigest : HashUnit → List Byte → Digest
  | .sha256, m => Sha256.digest m
  | .external n, m => Config.externalHash n m

/-- D[255:248], the digest's most significant byte (20_memory.md R64). -/
def digestMsb (d : Digest) : Byte := d.extractLsb' 248 8

/-! ### Admission of a command word (30_encoding.md R87) -/

/-- The commands that run in the fault state (60_exceptions.md R164). -/
def runsInFaultState : Instr → Bool
  | .nop | .rst | .rdreg _ => true
  | .eclr | .ebyte _ | .efin | .cksum | .merge | .rdchk _ | .setwl _ | .dchar _ | .dclr => false

/-- What `step(w)` of 30_encoding.md R87 does with a word: `some (some i)` executes i, `some none` raises ILLEGAL_CMD,
`none` refuses. -/
def admission (w : Word) (s : State) : Option (Option Instr) :=
  match s.flt.fault, decode w with
  | true, .ok i => if runsInFaultState i then some (some i) else none
  | true, .error _ => none
  | false, .ok i => some (some i)
  | false, .error _ => some none

end Sys2Proof.Machine
end

