-- ==== Sys2Proof/Machine/Checksum.lean ====
section
/-! DEFINITION. The checksum unit (40_checksum.md). -/

namespace Sys2Proof.Machine

/-- The checksum-bit count of an entropy length, `ELEN div 4` (40_checksum.md R108, 90_conflicts.md C1). -/
def checksumCount (elen : Nat) : Nat := elen / 4

/-- `D[255:248] >> (8 - count)` (40_checksum.md R110). -/
def checksumBits (msb : Byte) (count : Nat) : Byte := BitVec.ofNat 8 (msb.toNat >>> (8 - count))

/-- The checksum elements after the digest d came back (40_checksum.md R110). -/
def recordDigest (d : Digest) (e : EntropyPath) : EntropyPath :=
  { e with
    dmsb := digestMsb d
    csbits := BitVec.ofNat 4 (checksumCount e.elen.toNat)
    cs := checksumBits (digestMsb d) (checksumCount e.elen.toNat)
    csv := true }

/-- `CKSUM` (40_checksum.md R110). Both checks come before the hash request. -/
def execCksum (s : State) : Result :=
  if !checksumDue s.ent then .next (raise .sequence s)
  else if !validEntropyLen s.ent.elen.toNat then .next (raise .badEntropyLen s)
  else
    match message s.ent with
    | none => .fault .noValue
    | some m =>
      let e := recordDigest (hashDigest s.hashUnit m) s.ent
      .next (respond false (cksumData e.csbits e.cs) (s.setEnt e))

end Sys2Proof.Machine
end

