-- ==== Sys2Proof/Machine/Chunker.lean ====
section
/-! DEFINITION. The bit-chunker (41_chunker.md). -/

namespace Sys2Proof.Machine

/-- `ECLR`: the entropy path as after reset; the dice path and the fault elements stay (41_chunker.md R119). -/
def execEclr (s : State) : Result := .next (respond false 0 (s.setEnt .reset))

/-- The next k = min(NEED, rem) bits of b, most significant first: `(b >> (rem - k)) & ((1 << k) - 1)` (41_chunker.md
R120). -/
def nextBits (b : Byte) (rem k : Nat) : Nat := (b.toNat >>> (rem - k)) &&& ((1 <<< k) - 1)

/-- Shift k bits of b into ACC and count them off NEED (the first half of the loop body of 41_chunker.md R120). -/
def takeBits (b : Byte) (rem k : Nat) (e : EntropyPath) : EntropyPath :=
  { e with
    acc := BitVec.ofNat 11 ((e.acc.toNat <<< k) ||| nextBits b rem k)
    need := BitVec.ofNat 4 (e.need.toNat - k) }

/-- The loop of 41_chunker.md R120: `rem` bits of b are left (REM, 10_state.md R28) and `out` is the chunk emitted so
far. It answers the new entropy path and the emitted chunk, or `none` where a chunk has no entry to go to. The first
argument bounds the rounds; a round takes a bit unless NEED = 0 at its start, so `rem + 2` are enough. -/
def consumeBits : Nat → Byte → Nat → EntropyPath → Option Chunk → Option (EntropyPath × Option Chunk)
  | 0, _, _, _, _ => none
  | rounds + 1, b, rem, e, out =>
    if rem = 0 then some (e, out)
    else
      let k := min e.need.toNat rem
      let e1 := takeBits b rem k e
      if e1.need = 0 then
        match emitChunk e1.acc e1 with
        | none => none
        | some e2 => consumeBits rounds b (rem - k) { e2 with acc := 0, need := 11 } (some e1.acc)
      else consumeBits rounds b (rem - k) e1 out

/-- Append b to EBUF and consume its 8 bits. -/
def takeByte (b : Byte) (e : EntropyPath) : Option (EntropyPath × Option Chunk) :=
  match appendByte b e with
  | none => none
  | some e1 => consumeBits 10 b 8 e1 none

/-- `EBYTE b` (41_chunker.md R120). -/
def execEbyte (b : Byte) (s : State) : Result :=
  if !chunkerOpen s.ent then .next (raise .sequence s)
  else if s.ent.elen = 32 then .next (raise .entropyOverflow s)
  else
    match takeByte b s.ent with
    | none => .fault .noEntry
    | some (e, done) => .next (respond false (ebyteData done) (s.setEnt e))

/-- Flush the partial chunk, if there is one: the new entropy path and whether one was emitted, or `none` where the
chunk has no entry to go to (41_chunker.md R121). -/
def flushChunk (e : EntropyPath) : Option (EntropyPath × Bool) :=
  if e.need = 11 then some ({ e with left := 0, acc := 0, need := 11, fin := true }, false)
  else
    match emitChunk (BitVec.ofNat 11 (e.acc.toNat <<< e.need.toNat)) e with
    | none => none
    | some e1 => some ({ e1 with left := e.need, acc := 0, need := 11, fin := true }, true)

/-- `EFIN` (41_chunker.md R121). -/
def execEfin (s : State) : Result :=
  if !chunkerOpen s.ent then .next (raise .sequence s)
  else
    match flushChunk s.ent with
    | none => .fault .noEntry
    | some (e, p) => .next (respond false (efinData p e.nchunk e.left) (s.setEnt e))

end Sys2Proof.Machine
end

