-- ==== Sys2Proof/Machine/Control.lean ====
section
/-! DEFINITION. The control commands (44_control.md). -/

namespace Sys2Proof.Machine

/-- `NOP` (44_control.md R150). -/
def execNop (s : State) : Result := .next (respond false 0 s)

/-- `RST`, the return from a fault (44_control.md R151, 60_exceptions.md R165). -/
def execRst (s : State) : Result := .next (respond false 0 (resetElements s))

/-- `RDREG r` (44_control.md R152). -/
def execRdreg (r : Reg) (s : State) : Result := .next (respond false (readReg r s) s)

end Sys2Proof.Machine
end

