-- ==== Sys2Proof/Machine/Dice.lean ====
section
/-! DEFINITION. The dice-to-index debiaser (43_dice.md). -/

namespace Sys2Proof.Machine

/-- Discard the current word and the last index (43_dice.md R142, R143). -/
def clearWord (d : DicePath) : DicePath := { d with dacc := 0, dcnt := 0, didx := 0, dv := false }

/-- `SETWL L` (43_dice.md R142). -/
def execSetwl (len : Half) (s : State) : Result :=
  if legalLength len then
    let d := clearWord { s.dice with wlen := len, ndice := BitVec.ofNat 4 (diceCount len), wlv := true }
    .next (respond false (d.ndice.setWidth 16) (s.setDice d))
  else .next (raise .badWlen s)

/-- A word is complete with the base-6 value acc: its index, and a cleared accumulator (43_dice.md R140). -/
def completeWord (acc : Nat) (d : DicePath) : DicePath :=
  { d with didx := BitVec.ofNat 16 (acc % d.wlen.toNat), dv := true, dacc := 0, dcnt := 0 }

/-- A digit that does not complete a word (43_dice.md R140). -/
def extendWord (acc cnt : Nat) (d : DicePath) : DicePath :=
  { d with dacc := BitVec.ofNat 40 acc, dcnt := BitVec.ofNat 4 cnt, dv := false }

/-- `DCHAR c` (43_dice.md R140). -/
def execDchar (c : Byte) (s : State) : Result :=
  if !s.dice.wlv then .next (raise .sequence s)
  else
    match faceDigit c with
    | none => .next (respond false (dcharData false false) s)
    | some digit =>
      let acc := s.dice.dacc.toNat * 6 + digit
      let cnt := s.dice.dcnt.toNat + 1
      if cnt = s.dice.ndice.toNat then
        if s.dice.wlen = 0 then .fault .zeroModulus
        else .next (respond false (dcharData true true) (s.setDice (completeWord acc s.dice)))
      else .next (respond false (dcharData false true) (s.setDice (extendWord acc cnt s.dice)))

/-- `DCLR` (43_dice.md R143). -/
def execDclr (s : State) : Result := .next (respond false 0 (s.setDice (clearWord s.dice)))

end Sys2Proof.Machine
end

