-- ==== Sys2Proof/Machine/Mapper.lean ====
section
/-! DEFINITION. The entropy-path mapper (42_entropy_mapper.md). -/

namespace Sys2Proof.Machine

/-- OR the checksum bits into CHUNK[NCHUNK-1]: the new entropy path and the merged chunk, or `none` where that entry
holds no value (42_entropy_mapper.md R130; OR and not addition, 90_conflicts.md C6). -/
def mergeChecksum (e : EntropyPath) : Option (EntropyPath × Chunk) :=
  if e.nchunk = 0 then none
  else
    match readChunk e (e.nchunk.toNat - 1) with
    | none => none
    | some v =>
      let merged : Chunk := v ||| e.cs.setWidth 11
      (writeChunk e (e.nchunk.toNat - 1) merged).map fun e' => ({ e' with mrg := true }, merged)

/-- `MERGE` (42_entropy_mapper.md R130). -/
def execMerge (s : State) : Result :=
  if !mergeDue s.ent then .next (raise .sequence s)
  else if s.ent.left ≠ s.ent.csbits then .next (raise .checksumMismatch s)
  else
    match mergeChecksum s.ent with
    | none => .fault .noValue
    | some (e, v) => .next (respond false (v.setWidth 16) (s.setEnt e))

/-- `RDCHK i` (42_entropy_mapper.md R131). "A read of an entry that holds no value faults and never returns a value",
so an absent entry below NCHUNK, which no run has, raises BAD_INDEX too (log entry 8). -/
def execRdchk (i : BitVec 5) (s : State) : Result :=
  if s.ent.nchunk.toNat ≤ i.toNat then .next (raise .badIndex s)
  else
    match readChunk s.ent i.toNat with
    | none => .next (raise .badIndex s)
    | some v => .next (respond false (v.setWidth 16) s)

end Sys2Proof.Machine
end

