-- ==== Sys2Proof/Machine/Dispatch.lean ====
section
/-! DEFINITION. `execute(op, imm)` of 30_encoding.md R87: one arm for each command. -/

namespace Sys2Proof.Machine

def exec (i : Instr) (s : State) : Host.Outcome State Fault Refusal :=
  match i with
  | .nop => Sys2Proof.Machine.execNop s
  | .rst => Sys2Proof.Machine.execRst s
  | .eclr => Sys2Proof.Machine.execEclr s
  | .ebyte b => Sys2Proof.Machine.execEbyte b s
  | .efin => Sys2Proof.Machine.execEfin s
  | .cksum => Sys2Proof.Machine.execCksum s
  | .merge => Sys2Proof.Machine.execMerge s
  | .rdchk k => Sys2Proof.Machine.execRdchk k s
  | .setwl len => Sys2Proof.Machine.execSetwl len s
  | .dchar c => Sys2Proof.Machine.execDchar c s
  | .dclr => Sys2Proof.Machine.execDclr s
  | .rdreg r => Sys2Proof.Machine.execRdreg r s

end Sys2Proof.Machine
end

