-- ==== Sys2Proof/Machine/Step.lean ====
section
/-! DEFINITION. One step: the block takes the host's next event (30_encoding.md R87, 20_memory.md R63). -/

namespace Sys2Proof.Machine

/-- `step(w)` of 30_encoding.md R87, on a state that has accepted w. -/
def runWord (w : Word) (s : State) : Result :=
  match admission w s with
  | some (some i) => exec i s
  | some none => .next (raise .illegalCmd s)
  | none => .next (refuse s)

/-- One step: one command with its one response, or one hardware reset; with nothing sent, no step (93 U5). -/
def step (s : State) : Host.Outcome State Fault Refusal :=
  match s.inputs with
  | [] => .refused .noCommand
  | .reset _ :: rest => .next (hardwareReset (s.setInputs rest))
  | .command w :: rest => runWord w (accept rest s)

/-- s with a word of the opcode table as the host's next command: the block has no instruction memory
(10_state.md R22), so the next instruction is the next command the host sends (log entry 1). -/
def State.withFetchWord (s : State) (nbits w : Nat) : State :=
  s.setInputs (.command (tableWord nbits w) :: s.inputs)

end Sys2Proof.Machine
end

