-- ==== Sys2Proof/Machine/Assembler.lean ====
section
/-! DEFINITION. The assembler of 30_encoding.md R90 and R91: source lines to commands. It is the host's tool; the block
never sees it and no step calls it. Lexical details that R90 shows only by example are log entry 11. -/

namespace Sys2Proof.Asm

/-- Why a line does not assemble. -/
inductive AsmError where
  /-- A character that starts no token, an unclosed quote, or a malformed number. -/
  | badToken
  /-- A name that is no mnemonic or pseudo-command. -/
  | unknownMnemonic
  /-- Too few, too many, or the wrong kind of operands. -/
  | badOperands
  /-- "An operand out of its field's range is an assembly error" (30_encoding.md R90). -/
  | outOfRange
  deriving DecidableEq, Repr

/-- An operand as written (30_encoding.md R90). -/
inductive Operand where
  /-- A decimal or hexadecimal number. -/
  | num (n : Nat)
  /-- A character literal, standing for its code. -/
  | chr (b : Byte)
  /-- A register name of 10_state.md R47. -/
  | reg (r : Reg)
  deriving DecidableEq, Repr

/-- A source line (30_encoding.md R90, R91). -/
inductive Line where
  /-- Nothing, or a comment alone. -/
  | blank
  /-- A mnemonic and its operands. -/
  | command (op : Op) (args : List Operand)
  /-- `EBYTES b0, b1, ..., bk`. -/
  | ebytes (args : List Operand)
  /-- `DSTR "text"`. -/
  | dstr (text : List Byte)
  /-- `RDSTAT`. -/
  | rdstat
  deriving DecidableEq, Repr

/-! ### From a line to commands -/

/-- A number that fits a field of n bits; the assembler never truncates (30_encoding.md R90). -/
def fit (n v : Nat) : Except AsmError (BitVec n) :=
  if v < 2 ^ n then .ok (BitVec.ofNat n v) else .error .outOfRange

/-- An operand of format B: a number or a character literal. -/
def byteOperand : Operand → Except AsmError Byte
  | .num v => fit 8 v
  | .chr b => .ok b
  | .reg _ => .error .badOperands

/-- One command with its operands (30_encoding.md R90). -/
def assembleCommand (op : Op) (args : List Operand) : Except AsmError Instr :=
  match op, args with
  | .nop, [] => .ok .nop
  | .rst, [] => .ok .rst
  | .eclr, [] => .ok .eclr
  | .ebyte, [a] => (byteOperand a).map .ebyte
  | .efin, [] => .ok .efin
  | .cksum, [] => .ok .cksum
  | .merge, [] => .ok .merge
  | .rdchk, [.num v] => (fit 5 v).map .rdchk
  | .setwl, [.num v] => (fit 16 v).map .setwl
  | .dchar, [a] => (byteOperand a).map .dchar
  | .dclr, [] => .ok .dclr
  | .rdreg, [.num v] => (fit 4 v).map fun r => .rdreg (Reg.ofNumber r)
  | .rdreg, [.reg r] => .ok (.rdreg r)
  | _, _ => .error .badOperands

/-- A line's commands, the pseudo-commands expanded in order (30_encoding.md R91). -/
def assembleLine : Line → Except AsmError (List Instr)
  | .blank => .ok []
  | .command op args => (assembleCommand op args).map ([·])
  | .ebytes [] => .error .badOperands
  | .ebytes (a :: as) => (a :: as).mapM fun x => (byteOperand x).map .ebyte
  | .dstr text => .ok (text.map .dchar)
  | .rdstat => .ok [.rdreg .status]

/-! ### From text to a line -/

/-- The tokens of a line. -/
inductive Token where
  | name (cs : List Char)
  | num (n : Nat)
  | chr (b : Byte)
  | str (bs : List Byte)
  | comma
  deriving DecidableEq, Repr

/-- The value of a digit in a base. -/
def digitValue (base : Nat) (c : Char) : Option Nat :=
  let v :=
    if c.isDigit then c.toNat - '0'.toNat
    else if c.isLower then c.toNat - 'a'.toNat + 10
    else if c.isUpper then c.toNat - 'A'.toNat + 10
    else base
  if v < base then some v else none

/-- A digit string in a base; no digits is no number. -/
def digits (base : Nat) (cs : List Char) : Option Nat :=
  if cs.isEmpty then none
  else cs.foldlM (fun n c => (digitValue base c).map (n * base + ·)) 0

/-- A decimal number, or a hexadecimal number `0x..` (30_encoding.md R90). -/
def number : List Char → Option Nat
  | '0' :: 'x' :: cs => digits 16 cs
  | cs => digits 10 cs

/-- The bytes of a quoted text up to its closing quote, and what follows; `\n` is 0x0A (30_encoding.md R91). A character
beyond 7 bits is its UTF-8 bytes. -/
def quoted : List Char → Except AsmError (List Byte × List Char)
  | [] => .error .badToken
  | '"' :: cs => .ok ([], cs)
  | '\\' :: 'n' :: cs => (quoted cs).map fun (bs, rest) => (0x0A :: bs, rest)
  | c :: cs => (quoted cs).map fun (bs, rest) => ((String.utf8EncodeChar c).map UInt8.toBitVec ++ bs, rest)

/-- A character of a name or a number. -/
def isWordChar (c : Char) : Bool := c.isAlphanum || c == '_'

/-- The tokens of a line; `;` starts a comment. The first argument bounds the number of tokens and blanks. -/
def tokens : Nat → List Char → Except AsmError (List Token)
  | 0, cs => if cs.isEmpty then .ok [] else .error .badToken
  | _, [] => .ok []
  | n + 1, c :: cs =>
    if c == ';' then .ok []
    else if c == ' ' || c == '\t' then tokens n cs
    else if c == ',' then (tokens n cs).map (.comma :: ·)
    else if c == '"' then
      match quoted cs with
      | .error e => .error e
      | .ok (bs, rest) => (tokens n rest).map (.str bs :: ·)
    else if c == '\'' then
      match cs with
      | k :: '\'' :: rest =>
        if k.toNat < 128 then (tokens n rest).map (.chr (BitVec.ofNat 8 k.toNat) :: ·) else .error .badToken
      | _ => .error .badToken
    else if isWordChar c then
      let w := c :: cs.takeWhile isWordChar
      let rest := cs.dropWhile isWordChar
      if c.isDigit then
        match number w with
        | none => .error .badToken
        | some v => (tokens n rest).map (.num v :: ·)
      else (tokens n rest).map (.name (w.map Char.toUpper) :: ·)
    else .error .badToken

/-- The mnemonics (30_encoding.md R85), in capitals. -/
def mnemonics : List (List Char × Op) :=
  [("NOP".toList, .nop), ("RST".toList, .rst), ("ECLR".toList, .eclr), ("EBYTE".toList, .ebyte),
   ("EFIN".toList, .efin), ("CKSUM".toList, .cksum), ("MERGE".toList, .merge), ("RDCHK".toList, .rdchk),
   ("SETWL".toList, .setwl), ("DCHAR".toList, .dchar), ("DCLR".toList, .dclr), ("RDREG".toList, .rdreg)]

/-- The register names (10_state.md R47), in capitals. -/
def registers : List (List Char × Reg) :=
  [("STATUS".toList, .status), ("ELEN".toList, .elen), ("NEED".toList, .need), ("ACC".toList, .acc),
   ("NCHUNK".toList, .nchunk), ("LEFT".toList, .left), ("CSBITS".toList, .csbits), ("DMSB".toList, .dmsb),
   ("CS".toList, .cs), ("WLEN".toList, .wlen), ("NDICE".toList, .ndice), ("DCNT".toList, .dcnt),
   ("DACC_LO".toList, .daccLo), ("DACC_MID".toList, .daccMid), ("DACC_HI".toList, .daccHi), ("DIDX".toList, .didx)]

/-- A token as an operand. -/
def operand : Token → Except AsmError Operand
  | .num n => .ok (.num n)
  | .chr b => .ok (.chr b)
  | .name cs =>
    match registers.lookup cs with
    | some r => .ok (.reg r)
    | none => .error .badOperands
  | .str _ | .comma => .error .badOperands

/-- Operands between commas. -/
def operandList : List Token → Except AsmError (List Operand)
  | [] => .ok []
  | [t] => (operand t).map ([·])
  | t :: .comma :: u :: ts => do
    let a ← operand t
    let as ← operandList (u :: ts)
    return a :: as
  | _ :: _ :: _ => .error .badOperands

/-- A line from its tokens. -/
def parseTokens : List Token → Except AsmError Line
  | [] => .ok .blank
  | .name cs :: ts =>
    match mnemonics.lookup cs with
    | some op => (operandList ts).map (.command op)
    | none =>
      if cs = "EBYTES".toList then (operandList ts).map .ebytes
      else if cs = "DSTR".toList then
        match ts with
        | [.str bs] => .ok (.dstr bs)
        | _ => .error .badOperands
      else if cs = "RDSTAT".toList then
        if ts.isEmpty then .ok .rdstat else .error .badOperands
      else .error .unknownMnemonic
  | _ :: _ => .error .unknownMnemonic

/-- The commands of one line of source text. -/
def assembleText (cs : List Char) : Except AsmError (List Instr) := do
  let ts ← tokens cs.length cs
  let line ← parseTokens ts
  assembleLine line

/-- The commands of a program, one line after the other (30_encoding.md R90). -/
def assemble (lines : List (List Char)) : Except AsmError (List Instr) :=
  (lines.mapM assembleText).map List.flatten

end Sys2Proof.Asm
end

