-- ==== Sys2Proof/WellFormed.lean ====
section
/-! DEFINITION. Which 32-bit words spell a command, written from 30_encoding.md R84 as it stands: three checks, on OP, on
RSV and on the bits of IMM outside the operand field. The decoder (Decode.lean) has its own tables; that the two
agree is a statement. -/

namespace Sys2Proof

/-- IMASK of an OP value (30_encoding.md R82): the bits of IMM that carry an operand. -/
def imaskOf (op : Nat) : Word :=
  match op with
  | 0x3 | 0x9 => 0x00FF
  | 0x7 => 0x001F
  | 0xB => 0x000F
  | 0x8 => 0xFFFF
  | _ => 0x0000

/-- The opcode check: OP ≤ 0xB. -/
def opcodeOk (w : Word) : Bool := (w >>> 28).toNat ≤ 0xB

/-- The reserved-field check: RSV = CMD[27:16] = 0. -/
def rsvOk (w : Word) : Bool := w &&& 0x0FFF0000 == 0

/-- The operand check: (IMM & ~IMASK(OP)) = 0. -/
def immOk (w : Word) : Bool := (w &&& 0x0000FFFF) &&& ~~~ imaskOf (w >>> 28).toNat == 0

/-- A word is well-formed exactly when it passes the three checks (30_encoding.md R84). -/
def wellFormed (w : Word) : Bool := opcodeOk w && rsvOk w && immOk w

end Sys2Proof
end

