-- ==== Sys2Proof/Safety.lean ====
section
/-! DEFINITION. The terms claims use: the invariants of 10_state.md R51 and R52, the bit streams of 20_memory.md R65 and
R74, base-6 values (43_dice.md R138), the phases of 41_chunker.md R122, and the spec's own tables. The machine reads
none of these. -/

namespace Sys2Proof.Safety

open Sys2Proof.Machine

/-! ### Legal wordlist lengths (43_dice.md R139) -/

/-- L is legal and N(L) = n: 2 ≤ L ≤ 65535, L = 2^a · 3^b and n = max(a, b). -/
def LegalWith (len n : Nat) : Prop :=
  2 ≤ len ∧ len ≤ 65535 ∧ ∃ a b, len = 2 ^ a * 3 ^ b ∧ n = max a b

/-- L is legal. -/
def Legal (len : Nat) : Prop := ∃ n, LegalWith len n

/-- The first part of the list of 43_dice.md R139. -/
def legalLow : List Nat :=
  [2, 3, 4, 6, 8, 9, 12, 16, 18, 24, 27, 32, 36, 48, 54, 64, 72, 81, 96, 108, 128, 144, 162, 192, 216, 243, 256, 288,
   324, 384, 432, 486, 512, 576, 648, 729, 768, 864, 972, 1024]
/-- The second part. -/
def legalMid : List Nat :=
  [1152, 1296, 1458, 1536, 1728, 1944, 2048, 2187, 2304, 2592, 2916, 3072, 3456, 3888, 4096, 4374, 4608, 5184, 5832,
   6144, 6561, 6912, 7776, 8192, 8748, 9216]
/-- The last part. -/
def legalHigh : List Nat :=
  [10368, 11664, 12288, 13122, 13824, 15552, 16384, 17496, 18432, 19683, 20736, 23328, 24576, 26244, 27648, 31104, 32768,
   34992, 36864, 39366, 41472, 46656, 49152, 52488, 55296, 59049, 62208]
/-- The 93 legal values, as 43_dice.md R139 lists them. -/
def legalLengths : List Nat := legalLow ++ legalMid ++ legalHigh

/-! ### Invariants (10_state.md R51, R52) -/

/-- The entropy path between commands: items 1 to 6 of 10_state.md R51, the values R33 to R35 give the checksum
elements, and which entries hold a value (R52). -/
structure EntropyInv (e : EntropyPath) : Prop where
  need_range : 1 ≤ e.need.toNat ∧ e.need.toNat ≤ 11
  acc_lt : e.acc.toNat < 2 ^ (11 - e.need.toNat)
  counts : e.elen.toNat ≤ 32 ∧ e.nchunk.toNat ≤ 24
  unfinished : e.fin = false →
    e.nchunk.toNat = 8 * e.elen.toNat / 11 ∧ e.need.toNat = 11 - 8 * e.elen.toNat % 11 ∧ e.left = 0
  finished : e.fin = true →
    e.acc = 0 ∧ e.need = 11 ∧ e.nchunk.toNat = (8 * e.elen.toNat + 10) / 11 ∧
      e.left.toNat = (11 - 8 * e.elen.toNat % 11) % 11
  summed : e.csv = true →
    e.fin = true ∧ e.elen.toNat ∈ [16, 20, 24, 28, 32] ∧ e.csbits.toNat = e.elen.toNat / 4 ∧ e.csbits = e.left ∧
      e.cs.toNat < 2 ^ e.csbits.toNat ∧ e.cs.toNat = e.dmsb.toNat / 2 ^ (8 - e.csbits.toNat)
  unsummed : e.csv = false → e.csbits = 0 ∧ e.dmsb = 0 ∧ e.cs = 0
  merged : e.mrg = true → e.csv = true
  ebuf_holds : ∀ i < 32, (readEbuf e i).isSome = decide (i < e.elen.toNat)
  chunk_holds : ∀ i < 24, (readChunk e i).isSome = decide (i < e.nchunk.toNat)

/-- The dice path between commands: items 7 to 9 of 10_state.md R51. -/
structure DiceInv (d : DicePath) : Prop where
  configured : d.wlv = true →
    LegalWith d.wlen.toNat d.ndice.toNat ∧ d.dcnt.toNat < d.ndice.toNat ∧ d.dacc.toNat < 6 ^ d.dcnt.toNat ∧
      d.didx.toNat < d.wlen.toNat
  unconfigured : d.wlv = false →
    d.wlen = 0 ∧ d.ndice = 0 ∧ d.dacc = 0 ∧ d.dcnt = 0 ∧ d.didx = 0 ∧ d.dv = false
  fresh : d.dv = true → d.dcnt = 0 ∧ d.dacc = 0

/-- The fault elements between commands: item 10 of 10_state.md R51, and codes 8 to 15 are never produced
(60_exceptions.md R160). -/
structure FaultInv (f : FaultUnit) : Prop where
  zero_iff : f.fcause = 0 ↔ f.fault = false
  code_le : f.fcause.toNat ≤ 7

/-- The invariants of 10_state.md R51 and R52. -/
structure Inv (s : State) : Prop where
  ent : EntropyInv s.ent
  dice : DiceInv s.dice
  flt : FaultInv s.flt

/-! ### Bit streams (20_memory.md R65, R74) -/

/-- The bits of a byte, most significant first. -/
def byteBits (b : Byte) : List Bool := (List.range 8).map fun i => b.getLsbD (7 - i)

/-- The entropy bit stream S of a byte sequence (20_memory.md R65). -/
def streamBits (m : List Byte) : List Bool := m.flatMap byteBits

/-- The value of bits, the first most significant. -/
def bitsValue (l : List Bool) : Nat := l.foldl (fun n b => 2 * n + b.toNat) 0

/-- Bits 11j to 11j+10 of a stream, bit 11j as the chunk's bit 10 (20_memory.md R65). -/
def chunkAt (l : List Bool) (j : Nat) : Chunk := BitVec.ofNat 11 (bitsValue ((l.drop (11 * j)).take 11))

/-- The n checksum bits in CS, most significant first (20_memory.md R74). -/
def checksumStream (cs : Byte) (n : Nat) : List Bool := (List.range n).map fun i => cs.getLsbD (n - 1 - i)

/-- What follows the entropy bits in CHUNK: the checksum bits after MERGE, LEFT zero bits before it. -/
def streamTail (e : EntropyPath) : List Bool :=
  if e.mrg then checksumStream e.cs e.csbits.toNat else List.replicate e.left.toNat false

/-- The contents of the entropy path: CHUNK and ACC hold the stream of EBUF (20_memory.md R65, R74; 41_chunker.md
R123), and DMSB holds the digest's most significant byte (20_memory.md R64). -/
structure StreamInv (s : State) : Prop where
  chunks : ∀ m, message s.ent = some m → ∀ j < s.ent.nchunk.toNat,
    readChunk s.ent j = some (chunkAt (streamBits m ++ streamTail s.ent) j)
  pending : ∀ m, message s.ent = some m → s.ent.fin = false →
    s.ent.acc.toNat = bitsValue ((streamBits m).drop (11 * s.ent.nchunk.toNat))
  digest : ∀ m, message s.ent = some m → s.ent.csv = true → s.ent.dmsb = digestMsb (hashDigest s.hashUnit m)

/-! ### Dice values -/

/-- The base-6 value of digits, the first most significant (43_dice.md R138). -/
def base6 (ds : List Nat) : Nat := ds.foldl (fun n d => n * 6 + d) 0

/-- The digits that a sequence of characters throws (43_dice.md R140). -/
def throws (cs : List Byte) : List Nat := cs.filterMap faceDigit

/-! ### Phases of the entropy path (41_chunker.md R122) -/

/-- The four phases, 1 to 4. -/
inductive Phase where
  | filling | finished | summed | merged
  deriving DecidableEq, Repr

/-- The phase that the flags show. -/
def phase (e : EntropyPath) : Phase :=
  if e.mrg then .merged else if e.csv then .summed else if e.fin then .finished else .filling

/-- The commands that raise SEQUENCE in a phase, as 41_chunker.md R122 lists them. -/
def outOfPhase : Phase → Instr → Bool
  | .filling, .cksum | .filling, .merge => true
  | .finished, .ebyte _ | .finished, .efin | .finished, .merge => true
  | .summed, .ebyte _ | .summed, .efin | .summed, .cksum => true
  | .merged, .ebyte _ | .merged, .efin | .merged, .cksum | .merged, .merge => true
  | _, _ => false

/-! ### Command families and sequences -/

/-- The commands of the entropy path (70_reset_and_hazards.md R176). -/
def isEntropyCommand : Instr → Bool
  | .eclr | .ebyte _ | .efin | .cksum | .merge | .rdchk _ => true
  | .nop | .rst | .setwl _ | .dchar _ | .dclr | .rdreg _ => false

/-- The commands of the dice path (70_reset_and_hazards.md R176). -/
def isDiceCommand : Instr → Bool
  | .setwl _ | .dchar _ | .dclr => true
  | .nop | .rst | .eclr | .ebyte _ | .efin | .cksum | .merge | .rdchk _ | .rdreg _ => false

/-- The host sends these commands, one after the other. -/
def sends (is : List Instr) : List HostEvent := is.map fun i => .command (encode i)

/-- `n` steps of the machine, stopping at the first stop (Host/Core.lean). -/
def steps (n : Nat) (s : State) : Result := Host.Core.run Sys2Proof.core n s

/-- The characters of a sequence of throws, digit 0 as '1' to digit 5 as '6' (43_dice.md R140). -/
def faces {n : Nat} (f : Fin n → Fin 6) : List Byte := List.ofFn fun k => BitVec.ofNat 8 (0x31 + (f k).val)

/-- DIDX after the host sends these throws, one DCHAR each, and nothing else; `none` where the machine stops. -/
def indexAfter {n : Nat} (s : State) (f : Fin n → Fin 6) : Option Nat :=
  match steps n (s.setInputs (sends ((faces f).map .dchar))) with
  | .next t => some t.dice.didx.toNat
  | .fault _ => none
  | .refused _ => none

/-- A row of the opcode map (30_encoding.md R85): mnemonic, match, mask. -/
def opcodeMap : List (Op × Word × Word) :=
  [(.nop, 0x00000000, 0xFFFFFFFF), (.rst, 0x10000000, 0xFFFFFFFF), (.eclr, 0x20000000, 0xFFFFFFFF),
   (.ebyte, 0x30000000, 0xFFFFFF00), (.efin, 0x40000000, 0xFFFFFFFF), (.cksum, 0x50000000, 0xFFFFFFFF),
   (.merge, 0x60000000, 0xFFFFFFFF), (.rdchk, 0x70000000, 0xFFFFFFE0), (.setwl, 0x80000000, 0xFFFF0000),
   (.dchar, 0x90000000, 0xFFFFFF00), (.dclr, 0xA0000000, 0xFFFFFFFF), (.rdreg, 0xB0000000, 0xFFFFFFF0)]

end Sys2Proof.Safety
end

