-- ==== Sys2Proof/Certificates/Slice0/Obligations.lean ====
section
/-! DEFINITION. The statements for the provers, from the numbered rules of spec/. -/

open Sys2Proof Sys2Proof.Machine Sys2Proof.Safety

/-! ### Encoding -/

/-- 30_encoding.md R92: each assembly line of the table stands for its word, and the word decodes to that command. -/
def Obligations.WorkedEncodings : Prop :=
  (Asm.assembleText "EBYTE 0x7f".toList).map (·.map encode) = .ok [0x3000007F] ∧
  (Asm.assembleText "DCHAR '6'".toList).map (·.map encode) = .ok [0x90000036] ∧
  (Asm.assembleText "SETWL 2048".toList).map (·.map encode) = .ok [0x80000800] ∧
  (Asm.assembleText "SETWL 7776".toList).map (·.map encode) = .ok [0x80001E60] ∧
  (Asm.assembleText "SETWL 1296".toList).map (·.map encode) = .ok [0x80000510] ∧
  (Asm.assembleText "RDCHK 11".toList).map (·.map encode) = .ok [0x7000000B] ∧
  (Asm.assembleText "RDREG 15".toList).map (·.map encode) = .ok [0xB000000F] ∧
  (Asm.assembleText "CKSUM".toList).map (·.map encode) = .ok [0x50000000] ∧
  decode 0x3000007F = .ok (.ebyte 0x7F) ∧ decode 0x90000036 = .ok (.dchar 0x36) ∧
  decode 0x80000800 = .ok (.setwl 2048) ∧ decode 0x80001E60 = .ok (.setwl 7776) ∧
  decode 0x80000510 = .ok (.setwl 1296) ∧ decode 0x7000000B = .ok (.rdchk 11) ∧
  decode 0xB000000F = .ok (.rdreg .didx) ∧ decode 0x50000000 = .ok .cksum

/-- Decoding the word of a command gives the command back, for every command and every operand. -/
def Obligations.DecodeEncodeRoundTrip : Prop := ∀ i : Instr, decode (encode i) = .ok i

/-- A word that decodes to a command is that command's one encoding: no bit of a word is dropped. -/
def Obligations.EncodeDecodeRoundTrip : Prop := ∀ (w : Word) (i : Instr), decode w = .ok i → encode i = w

/-- 30_encoding.md R84: the words that spell a command are exactly the well-formed ones; every other raises ILLEGAL_CMD
if no fault is pending and is refused if one is. -/
def Obligations.WellFormedWordsSpellCommands : Prop :=
  ∀ w : Word,
    (wellFormed w = true ↔
      (w >>> 28).toNat ≤ 0xB ∧ (w >>> 16).toNat % 2 ^ 12 = 0 ∧
        (w &&& 0xFFFF) &&& ~~~ imaskOf (w >>> 28).toNat = 0) ∧
    (wellFormed w = true ↔ ∃ i, decode w = .ok i) ∧
    (wellFormed w = false → ∀ (s : State) (rest : List HostEvent), s.inputs = .command w :: rest →
      (s.flt.fault = false → step s = .next (raise .illegalCmd (accept rest s))) ∧
      (s.flt.fault = true → step s = .next (refuse (accept rest s))))

/-- 30_encoding.md R85: a well-formed word w encodes a row's command exactly when (w & mask) = match. -/
def Obligations.OpcodeMapSelectsCommand : Prop :=
  (∀ w : Word, wellFormed w = true → ∀ row ∈ opcodeMap,
    (w &&& row.2.2 = row.2.1 ↔ ∃ i, decode w = .ok i ∧ i.op = row.1)) ∧
  ∀ w : Word, w &&& 0xC0000000 = 0xC0000000 → decode w = .error .reservedOpcode

/-- The decoder rejects by name (the names are the model's, log entry 12): first the opcode, then RSV, then the rest of IMM, the
order in which 30_encoding.md R87 writes the checks. -/
def Obligations.DecoderRejectsByName : Prop :=
  ∀ w : Word,
    (decode w = .error .reservedOpcode ↔ opcodeOk w = false) ∧
    (decode w = .error .reservedBits ↔ opcodeOk w = true ∧ rsvOk w = false) ∧
    (decode w = .error .strayImmediate ↔ opcodeOk w = true ∧ rsvOk w = true ∧ immOk w = false)

/-- 30_encoding.md R91: the pseudo-commands expand as the table says. EBYTES takes numbers and character literals alike,
and a number that is no byte is an error (R90). The lines of text are the form of 95_test_vectors.md P4 and the escape of
the table; how other text becomes operands is the model's choice (log entry 11). -/
def Obligations.PseudoCommandsExpand : Prop :=
  (∀ (bs : List Byte) (args : List Asm.Operand), bs ≠ [] →
    List.Forall₂ (fun b a => a = .chr b ∨ a = .num b.toNat) bs args →
      Asm.assembleLine (.ebytes args) = .ok (bs.map .ebyte)) ∧
  (∀ (before after : List Asm.Operand) (v : Nat), (∀ a ∈ before, ∃ b : Byte, a = .chr b ∨ a = .num b.toNat) →
    256 ≤ v → Asm.assembleLine (.ebytes (before ++ .num v :: after)) = .error .outOfRange) ∧
  (∀ text : List Byte, Asm.assembleLine (.dstr text) = .ok (text.map .dchar)) ∧
  Asm.assembleLine .rdstat = .ok [.rdreg .status] ∧ encode (.rdreg .status) = 0xB0000000 ∧
  Asm.assembleText "EBYTES 0xAA".toList = .ok [.ebyte 0xAA] ∧
  Asm.assembleText "EBYTES 0xAA, 'a', 255".toList = .ok [.ebyte 0xAA, .ebyte 0x61, .ebyte 0xFF] ∧
  Asm.assembleText "DSTR \"61\\n\"".toList = .ok [.dchar 0x36, .dchar 0x31, .dchar 0x0A] ∧
  Asm.assembleText "RDSTAT".toList = .ok [.rdreg .status]

/-- The assembler never truncates (30_encoding.md R90): a command that assembles from a number carries that number, and
a number that its field cannot hold is an error. -/
def Obligations.AssemblerNeverTruncates : Prop :=
  (∀ (op : Op) (v : Nat) (i : Instr), Asm.assembleCommand op [.num v] = .ok i → i.op = op ∧ i.imm.toNat = v) ∧
  ∀ v : Nat,
    (256 ≤ v → Asm.assembleCommand .ebyte [.num v] = .error .outOfRange ∧
      Asm.assembleCommand .dchar [.num v] = .error .outOfRange) ∧
    (32 ≤ v → Asm.assembleCommand .rdchk [.num v] = .error .outOfRange) ∧
    (16 ≤ v → Asm.assembleCommand .rdreg [.num v] = .error .outOfRange) ∧
    (65536 ≤ v → Asm.assembleCommand .setwl [.num v] = .error .outOfRange)

/-! ### The step -/

/-- When the host's next command decodes to i and no fault is pending, the step is exec of i on the state that has
accepted it: the event taken, the response port empty. -/
def Obligations.StepRunsDecodedCommand : Prop :=
  ∀ (s : State) (w : Word) (rest : List HostEvent) (i : Instr),
    s.inputs = .command w :: rest → decode w = .ok i → s.flt.fault = false →
      step s = exec i { s with inputs := rest, rsp := none }

/-- 30_encoding.md R87: each accepted word runs exactly one step, which executes, raises ILLEGAL_CMD or refuses. -/
def Obligations.StepFollowsDispatchRule : Prop :=
  ∀ (s : State) (w : Word) (rest : List HostEvent), s.inputs = .command w :: rest →
    (s.flt.fault = true → wellFormed w = true →
      ∀ i, decode w = .ok i → (i = .nop ∨ i = .rst ∨ ∃ r, i = .rdreg r) → step s = exec i (accept rest s)) ∧
    (s.flt.fault = true →
      (∀ i, decode w = .ok i → ¬ (i = .nop ∨ i = .rst ∨ ∃ r, i = .rdreg r)) →
        step s = .next (refuse (accept rest s))) ∧
    (s.flt.fault = false → wellFormed w = false → step s = .next (raise .illegalCmd (accept rest s))) ∧
    (s.flt.fault = false → wellFormed w = true → ∃ i, decode w = .ok i ∧ step s = exec i (accept rest s))

/-- With nothing sent the model has no step, and a step takes exactly the oldest event and leaves the hash port as it
is (20_memory.md R66). How the events are held is the model's choice (log entries 1, 3, 5). -/
def Obligations.StepTakesOneEventInOrder : Prop :=
  (∀ s : State, s.inputs = [] → step s = .refused .noCommand) ∧
  ∀ s t : State, step s = .next t → t.inputs = s.inputs.tail ∧ t.hashUnit = s.hashUnit

/-- In a state that meets the invariants, every event has its step: no word, and no hardware reset, stops the machine
(30_encoding.md R87: the decoder is total). -/
def Obligations.EveryEventHasItsStep : Prop :=
  ∀ s : State, Inv s → s.inputs ≠ [] → ∃ t, step s = .next t

/-- Every accepted command returns exactly one response; RSP_ERR is 1 exactly when it faulted or was refused, and then
RSP_DATA is FCAUSE as it stands after the command (30_encoding.md R89). -/
def Obligations.OneResponsePerCommand : Prop :=
  ∀ (s t : State) (w : Word) (rest : List HostEvent), s.inputs = .command w :: rest → step s = .next t →
    ∃ r, t.rsp = some r ∧
      (r.err = true → t.flt.fault = true ∧ r.data.toNat = t.flt.fcause.toNat) ∧
      (r.err = false → t.flt = s.flt ∨ w = 0x10000000) ∧
      (s.flt.fault = false → (r.err = true ↔ t.flt.fault = true))

/-! ### Faults and reset -/

/-- 60_exceptions.md R163: fault entry sets FAULT and FCAUSE, answers (1, zext_16(c)), and changes nothing else; and
whatever command faults, its state is the state before it with that fault entry. -/
def Obligations.FaultEntryIsPrecise : Prop :=
  (∀ (c : Cause) (s : State),
    raise c s = { s with flt := ⟨true, c.code⟩, rsp := some ⟨true, c.code.setWidth 16⟩ }) ∧
  ∀ (i : Instr) (s t : State), s.flt.fault = false → exec i s = .next t → t.flt.fault = true →
    ∃ c, t = raise c s

/-- 60_exceptions.md R160: the codes of the causes; no code is 0 and none is above 7. -/
def Obligations.CauseCodes : Prop :=
  Cause.code .illegalCmd = 1 ∧ Cause.code .sequence = 2 ∧ Cause.code .entropyOverflow = 3 ∧
  Cause.code .badEntropyLen = 4 ∧ Cause.code .badIndex = 5 ∧ Cause.code .badWlen = 6 ∧
  Cause.code .checksumMismatch = 7 ∧ ∀ c : Cause, 1 ≤ c.code.toNat ∧ c.code.toNat ≤ 7

/-- 60_exceptions.md R162: a command reports the first fault that applies, its checks in the order of the list. -/
def Obligations.FirstFaultIsReported : Prop :=
  (∀ (s : State) (w : Word) (rest : List HostEvent), s.inputs = .command w :: rest → s.flt.fault = true →
    (∀ i, decode w = .ok i → ¬ (i = .nop ∨ i = .rst ∨ ∃ r, i = .rdreg r)) →
      step s = .next (refuse (accept rest s))) ∧
  (∀ (s : State) (w : Word) (rest : List HostEvent), s.inputs = .command w :: rest → s.flt.fault = false →
    wellFormed w = false → step s = .next (raise .illegalCmd (accept rest s))) ∧
  ∀ s : State,
    (∀ b, (s.ent.fin = true → exec (.ebyte b) s = .next (raise .sequence s)) ∧
      (s.ent.fin = false → s.ent.elen = 32 → exec (.ebyte b) s = .next (raise .entropyOverflow s))) ∧
    ((s.ent.fin = false ∨ s.ent.csv = true) → exec .cksum s = .next (raise .sequence s)) ∧
    (s.ent.fin = true → s.ent.csv = false → s.ent.elen.toNat ∉ [16, 20, 24, 28, 32] →
      exec .cksum s = .next (raise .badEntropyLen s)) ∧
    ((s.ent.csv = false ∨ s.ent.mrg = true) → exec .merge s = .next (raise .sequence s)) ∧
    (s.ent.csv = true → s.ent.mrg = false → s.ent.left ≠ s.ent.csbits →
      exec .merge s = .next (raise .checksumMismatch s)) ∧
    (s.ent.fin = true → exec .efin s = .next (raise .sequence s)) ∧
    (s.dice.wlv = false → ∀ c, exec (.dchar c) s = .next (raise .sequence s)) ∧
    (∀ i : BitVec 5, s.ent.nchunk.toNat ≤ i.toNat → exec (.rdchk i) s = .next (raise .badIndex s)) ∧
    (∀ len : Half, ¬ Legal len.toNat → exec (.setwl len) s = .next (raise .badWlen s))

/-- 60_exceptions.md R164: in the fault state every command but NOP, RST and RDREG is refused, changes nothing and
answers (1, zext_16(FCAUSE)); NOP and RDREG answer with ERR = 0 and keep the fault; RST clears it. -/
def Obligations.FaultStateRefuses : Prop :=
  ∀ (s : State) (w : Word) (rest : List HostEvent), s.inputs = .command w :: rest → s.flt.fault = true →
    ((∀ i, decode w = .ok i → ¬ (i = .nop ∨ i = .rst ∨ ∃ r, i = .rdreg r)) →
      step s = .next { s with inputs := rest, rsp := some ⟨true, s.flt.fcause.setWidth 16⟩ }) ∧
    (w = 0x00000000 → step s = .next { s with inputs := rest, rsp := some ⟨false, 0⟩ }) ∧
    (∀ r, decode w = .ok (.rdreg r) → ∃ v, step s = .next { s with inputs := rest, rsp := some ⟨false, v⟩ }) ∧
    (w = 0x10000000 → ∃ t, step s = .next t ∧ t.flt = ⟨false, 0⟩)

/-- 60_exceptions.md R165: only a reset leaves the fault state, the hardware reset or a well-formed RST, and it sets
every element to its reset value. -/
def Obligations.OnlyResetLeavesFaultState : Prop :=
  ∀ s t : State, step s = .next t → s.flt.fault = true → t.flt ≠ s.flt →
    ((∃ a rest, s.inputs = .reset a :: rest) ∨ ∃ rest, s.inputs = .command 0x10000000 :: rest) ∧
      t.ent = State.reset.ent ∧ t.dice = State.reset.dice ∧ t.flt = State.reset.flt

/-- 10_state.md R23, 70_reset_and_hazards.md R172: the reset values, and no entry of EBUF or CHUNK holds one (R52). -/
def Obligations.ResetValues : Prop :=
  State.reset.ent.elen = 0 ∧ State.reset.ent.acc = 0 ∧ State.reset.ent.need = 11 ∧ State.reset.ent.nchunk = 0 ∧
  State.reset.ent.left = 0 ∧ State.reset.ent.fin = false ∧ State.reset.ent.csbits = 0 ∧ State.reset.ent.dmsb = 0 ∧
  State.reset.ent.cs = 0 ∧ State.reset.ent.csv = false ∧ State.reset.ent.mrg = false ∧
  State.reset.dice.wlen = 0 ∧ State.reset.dice.wlv = false ∧ State.reset.dice.ndice = 0 ∧ State.reset.dice.dacc = 0 ∧
  State.reset.dice.dcnt = 0 ∧ State.reset.dice.didx = 0 ∧ State.reset.dice.dv = false ∧
  State.reset.flt.fault = false ∧ State.reset.flt.fcause = 0 ∧
  (∀ i, readEbuf State.reset.ent i = none) ∧ ∀ i, readChunk State.reset.ent i = none

/-- 70_reset_and_hazards.md R171: the hardware reset and RST give every element its reset value; RST responds, the
hardware reset delivers no response, a command outstanding or not (log entry 6); the next event is then taken as ever. -/
def Obligations.ResetsHaveTheSameEffect : Prop :=
  ∀ (s : State) (rest : List HostEvent),
    (∀ a, s.inputs = .reset a :: rest →
      step s = .next { State.reset with inputs := rest, rsp := none, hashUnit := s.hashUnit }) ∧
    (s.inputs = .command 0x10000000 :: rest →
      step s = .next { State.reset with inputs := rest, rsp := some ⟨false, 0⟩, hashUnit := s.hashUnit })

/-! ### What each command does -/

/-- 44_control.md R150: NOP, word 0, answers 0 and changes nothing, with a fault pending or not; a word of OP 0 with any
nonzero bit is not NOP. -/
def Obligations.NopDoesNothing : Prop :=
  encode .nop = 0x00000000 ∧ (∀ s : State, exec .nop s = .next { s with rsp := some ⟨false, 0⟩ }) ∧
  ∀ (s : State) (w : Word) (rest : List HostEvent), s.inputs = .command w :: rest → w >>> 28 = 0 →
    (w = 0 → step s = .next { s with inputs := rest, rsp := some ⟨false, 0⟩ }) ∧
    (w ≠ 0 → s.flt.fault = false → step s = .next (raise .illegalCmd (accept rest s))) ∧
    (w ≠ 0 → s.flt.fault = true → step s = .next (refuse (accept rest s)))

/-- 44_control.md R151: RST, word 0x10000000, gives every element its reset value, with a fault pending or not; a word of
OP 1 with any other nonzero bit is not RST, and in the fault state it is refused and the block stays faulted. -/
def Obligations.RstResets : Prop :=
  encode .rst = 0x10000000 ∧
  (∀ s : State, exec .rst s = .next
    { s with ent := State.reset.ent, dice := State.reset.dice, flt := State.reset.flt, rsp := some ⟨false, 0⟩ }) ∧
  ∀ (s : State) (w : Word) (rest : List HostEvent), s.inputs = .command w :: rest → w >>> 28 = 1 →
    (w = 0x10000000 → step s = exec .rst (accept rest s)) ∧
    (w ≠ 0x10000000 → s.flt.fault = false → step s = .next (raise .illegalCmd (accept rest s))) ∧
    (w ≠ 0x10000000 → s.flt.fault = true → ∃ t, step s = .next t ∧
      t = refuse (accept rest s) ∧ t.ent = s.ent ∧ t.dice = s.dice ∧ t.flt = s.flt)

/-- 44_control.md R152 with the register map of 10_state.md R47, R48 and R49: RDREG r answers register r and changes
nothing, in any state. -/
def Obligations.RdregReadsRegisterMap : Prop :=
  (List.range 16).map (fun n => decode (BitVec.ofNat 32 (0xB0000000 + n))) =
    [Reg.status, .elen, .need, .acc, .nchunk, .left, .csbits, .dmsb, .cs, .wlen, .ndice, .dcnt, .daccLo, .daccMid,
      .daccHi, .didx].map (fun r => .ok (.rdreg r)) ∧
  ∀ (s : State) (r : Reg), ∃ v : Half, exec (.rdreg r) s = .next { s with rsp := some ⟨false, v⟩ } ∧
    v.toNat = match r with
      | .status => s.ent.fin.toNat + 2 * s.ent.csv.toNat + 4 * s.ent.mrg.toNat + 8 * s.dice.wlv.toNat +
          16 * s.dice.dv.toNat + 32 * s.flt.fault.toNat + 256 * s.flt.fcause.toNat
      | .elen => s.ent.elen.toNat
      | .need => s.ent.need.toNat
      | .acc => s.ent.acc.toNat
      | .nchunk => s.ent.nchunk.toNat
      | .left => s.ent.left.toNat
      | .csbits => s.ent.csbits.toNat
      | .dmsb => s.ent.dmsb.toNat
      | .cs => s.ent.cs.toNat
      | .wlen => s.dice.wlen.toNat
      | .ndice => s.dice.ndice.toNat
      | .dcnt => s.dice.dcnt.toNat
      | .daccLo => s.dice.dacc.toNat % 2 ^ 16
      | .daccMid => s.dice.dacc.toNat / 2 ^ 16 % 2 ^ 16
      | .daccHi => s.dice.dacc.toNat / 2 ^ 32
      | .didx => s.dice.didx.toNat

/-- 41_chunker.md R119: ECLR, word 0x20000000, clears the entropy path and no entry of EBUF or CHUNK holds a value
after it; the dice path and the fault elements stay. -/
def Obligations.EclrClearsEntropyPath : Prop :=
  encode .eclr = 0x20000000 ∧ ∀ s : State, exec .eclr s = .next
    { s with
      ent :=
        { ebuf := Vector.replicate 32 none, elen := 0, acc := 0, need := 11, chunk := Vector.replicate 24 none,
          nchunk := 0, left := 0, fin := false, csbits := 0, dmsb := 0, cs := 0, csv := false, mrg := false }
      rsp := some ⟨false, 0⟩ }

/-- 41_chunker.md R120, in closed form (R124, R125): EBYTE b appends b and takes its 8 bits most significant
first; with NEED > 8 no chunk completes, with NEED ≤ 8 exactly one does. -/
def Obligations.EbyteTakesByte : Prop :=
  ∀ (s : State) (b : Byte),
    (encode (.ebyte b)).toNat = 0x30000000 + b.toNat ∧
    (s.ent.fin = true → exec (.ebyte b) s = .next (raise .sequence s)) ∧
    (s.ent.fin = false → s.ent.elen = 32 → exec (.ebyte b) s = .next (raise .entropyOverflow s)) ∧
    (∀ h : s.ent.elen.toNat < 32, s.ent.fin = false → 8 < s.ent.need.toNat → s.ent.need.toNat ≤ 11 →
      s.ent.acc.toNat < 2 ^ (11 - s.ent.need.toNat) →
      ∃ a : Chunk, a.toNat = s.ent.acc.toNat * 2 ^ 8 + b.toNat ∧
        exec (.ebyte b) s = .next
          { s with
            ent := { s.ent with
              ebuf := s.ent.ebuf.set s.ent.elen.toNat (some b) h
              elen := s.ent.elen + 1
              acc := a
              need := s.ent.need - 8 }
            rsp := some ⟨false, 0⟩ }) ∧
    (∀ (h : s.ent.elen.toNat < 32) (hc : s.ent.nchunk.toNat < 24), s.ent.fin = false →
      1 ≤ s.ent.need.toNat → s.ent.need.toNat ≤ 8 → s.ent.acc.toNat < 2 ^ (11 - s.ent.need.toNat) →
      ∃ v a : Chunk,
        v.toNat = s.ent.acc.toNat * 2 ^ s.ent.need.toNat + b.toNat / 2 ^ (8 - s.ent.need.toNat) ∧
        a.toNat = b.toNat % 2 ^ (8 - s.ent.need.toNat) ∧
        exec (.ebyte b) s = .next
          { s with
            ent := { s.ent with
              ebuf := s.ent.ebuf.set s.ent.elen.toNat (some b) h
              elen := s.ent.elen + 1
              acc := a
              need := s.ent.need + 3
              chunk := s.ent.chunk.set s.ent.nchunk.toNat (some v) hc
              nchunk := s.ent.nchunk + 1 }
            rsp := some ⟨false, 0x8000 ||| v.setWidth 16⟩ })

/-- 41_chunker.md R121: EFIN flushes the partial chunk if NEED ≠ 11, and leaves ACC = 0, NEED = 11, FIN = 1. -/
def Obligations.EfinFlushesChunker : Prop :=
  encode .efin = 0x40000000 ∧
  ∀ s : State,
    (s.ent.fin = true → exec .efin s = .next (raise .sequence s)) ∧
    (s.ent.fin = false → s.ent.need = 11 → exec .efin s = .next
      { s with
        ent := { s.ent with left := 0, acc := 0, need := 11, fin := true }
        rsp := some ⟨false, s.ent.nchunk.setWidth 16 <<< 4⟩ }) ∧
    (∀ hc : s.ent.nchunk.toNat < 24, s.ent.fin = false → s.ent.need.toNat ≤ 10 →
      s.ent.acc.toNat < 2 ^ (11 - s.ent.need.toNat) →
      ∃ v : Chunk, v.toNat = s.ent.acc.toNat * 2 ^ s.ent.need.toNat ∧
        exec .efin s = .next
          { s with
            ent := { s.ent with
              chunk := s.ent.chunk.set s.ent.nchunk.toNat (some v) hc
              nchunk := s.ent.nchunk + 1
              left := s.ent.need
              acc := 0
              need := 11
              fin := true }
            rsp := some ⟨false,
              0x8000 ||| (s.ent.nchunk + 1).setWidth 16 <<< 4 ||| s.ent.need.setWidth 16⟩ })

/-- 40_checksum.md R110, for every function HASH (`hashDigest` of whichever unit is wired, 00_scope.md R10): CKSUM keeps
D[255:248] in DMSB, ELEN div 4 in CSBITS and the shifted byte in CS. -/
def Obligations.CksumTakesChecksum : Prop :=
  encode .cksum = 0x50000000 ∧
  ∀ s : State,
    ((s.ent.fin = false ∨ s.ent.csv = true) → exec .cksum s = .next (raise .sequence s)) ∧
    (s.ent.fin = true → s.ent.csv = false → s.ent.elen.toNat ∉ [16, 20, 24, 28, 32] →
      exec .cksum s = .next (raise .badEntropyLen s)) ∧
    ∀ m : List Byte, s.ent.fin = true → s.ent.csv = false → s.ent.elen.toNat ∈ [16, 20, 24, 28, 32] →
      m.length = s.ent.elen.toNat → (∀ i < s.ent.elen.toNat, readEbuf s.ent i = m[i]?) →
      ∃ (msb cs : Byte) (n : BitVec 4),
        msb.toNat = (hashDigest s.hashUnit m).toNat / 2 ^ 248 ∧ n.toNat = s.ent.elen.toNat / 4 ∧
        cs.toNat = msb.toNat / 2 ^ (8 - n.toNat) ∧ cs.toNat < 2 ^ n.toNat ∧
        exec .cksum s = .next
          { s with
            ent := { s.ent with dmsb := msb, csbits := n, cs := cs, csv := true }
            rsp := some ⟨false, n.setWidth 16 <<< 8 ||| cs.setWidth 16⟩ }

/-- The default HASH: State.reset has SHA-256 wired (00_scope.md R10), and the digests of 16, 24 and 32 zero bytes begin
as 95_test_vectors.md S1, S2 and S3 say. The text of SHA-256 is the model's, from FIPS 180-4 (log entries 3, 4). -/
def Obligations.DefaultHashExamples : Prop :=
  State.reset.hashUnit = .sha256 ∧
  (hashDigest .sha256 (List.replicate 16 0)).toNat / 2 ^ 192 = 0x374708fff7719dd5 ∧
  (hashDigest .sha256 (List.replicate 24 0)).toNat / 2 ^ 192 = 0x9d908ecfb6b256de ∧
  (hashDigest .sha256 (List.replicate 32 0)).toNat / 2 ^ 192 = 0x66687aadf862bd77

/-- 42_entropy_mapper.md R130: MERGE ORs CS into the last chunk; where the chunk's low bits are free, that is its sum
with CS. -/
def Obligations.MergeInsertsChecksum : Prop :=
  encode .merge = 0x60000000 ∧
  ∀ s : State,
    ((s.ent.csv = false ∨ s.ent.mrg = true) → exec .merge s = .next (raise .sequence s)) ∧
    (s.ent.csv = true → s.ent.mrg = false → s.ent.left ≠ s.ent.csbits →
      exec .merge s = .next (raise .checksumMismatch s)) ∧
    ∀ (v : Chunk) (k : Nat) (hk : k < 24), s.ent.csv = true → s.ent.mrg = false → s.ent.left = s.ent.csbits →
      s.ent.nchunk.toNat = k + 1 → readChunk s.ent k = some v →
      exec .merge s = .next
        { s with
          ent := { s.ent with
            chunk := s.ent.chunk.set k (some (v ||| s.ent.cs.setWidth 11)) hk
            mrg := true }
          rsp := some ⟨false, (v ||| s.ent.cs.setWidth 11).setWidth 16⟩ } ∧
      (v.toNat % 2 ^ s.ent.left.toNat = 0 → s.ent.cs.toNat < 2 ^ s.ent.left.toNat →
        (v ||| s.ent.cs.setWidth 11).toNat = v.toNat + s.ent.cs.toNat)

/-- 42_entropy_mapper.md R131: RDCHK i answers CHUNK[i] and changes nothing; at i ≥ NCHUNK it raises BAD_INDEX. That it
raises BAD_INDEX also at an absent entry below NCHUNK is the model's choice of cause (log entry 8): R131 says only that
such a read faults. -/
def Obligations.RdchkReadsChunk : Prop :=
  ∀ (s : State) (i : BitVec 5),
    (encode (.rdchk i)).toNat = 0x70000000 + i.toNat ∧
    (s.ent.nchunk.toNat ≤ i.toNat → exec (.rdchk i) s = .next (raise .badIndex s)) ∧
    (readChunk s.ent i.toNat = none → exec (.rdchk i) s = .next (raise .badIndex s)) ∧
    ∀ v, i.toNat < s.ent.nchunk.toNat → readChunk s.ent i.toNat = some v →
      exec (.rdchk i) s = .next { s with rsp := some ⟨false, v.setWidth 16⟩ }

/-- 43_dice.md R142 with R139: SETWL L configures a legal L and N(L) and discards the current word; any other L raises
BAD_WLEN. -/
def Obligations.SetwlConfiguresLength : Prop :=
  ∀ (s : State) (len : Half),
    (encode (.setwl len)).toNat = 0x80000000 + len.toNat ∧
    (∀ n, LegalWith len.toNat n → ∃ nd : BitVec 4, nd.toNat = n ∧
      exec (.setwl len) s = .next
        { s with
          dice := { wlen := len, wlv := true, ndice := nd, dacc := 0, dcnt := 0, didx := 0, dv := false }
          rsp := some ⟨false, nd.setWidth 16⟩ }) ∧
    (¬ Legal len.toNat → exec (.setwl len) s = .next (raise .badWlen s))

/-- 43_dice.md R140: DCHAR c ignores a character that is no die face, appends a face's digit, and on the N-th digit
gives the word's index, the base-6 value mod WLEN. -/
def Obligations.DcharTakesFace : Prop :=
  ∀ (s : State) (c : Byte),
    (encode (.dchar c)).toNat = 0x90000000 + c.toNat ∧
    (s.dice.wlv = false → exec (.dchar c) s = .next (raise .sequence s)) ∧
    (s.dice.wlv = true → (c.toNat < 0x31 ∨ 0x36 < c.toNat) →
      exec (.dchar c) s = .next { s with rsp := some ⟨false, 0⟩ }) ∧
    (DiceInv s.dice → s.dice.wlv = true → 0x31 ≤ c.toNat → c.toNat ≤ 0x36 →
      (s.dice.dcnt.toNat + 1 = s.dice.ndice.toNat → ∃ idx : Half,
        idx.toNat = (s.dice.dacc.toNat * 6 + (c.toNat - 0x31)) % s.dice.wlen.toNat ∧
        exec (.dchar c) s = .next
          { s with
            dice := { s.dice with didx := idx, dv := true, dacc := 0, dcnt := 0 }
            rsp := some ⟨false, 3⟩ }) ∧
      (s.dice.dcnt.toNat + 1 ≠ s.dice.ndice.toNat → ∃ (acc : BitVec 40) (cnt : BitVec 4),
        acc.toNat = s.dice.dacc.toNat * 6 + (c.toNat - 0x31) ∧ cnt.toNat = s.dice.dcnt.toNat + 1 ∧
        exec (.dchar c) s = .next
          { s with
            dice := { s.dice with dacc := acc, dcnt := cnt, dv := false }
            rsp := some ⟨false, 1⟩ }))

/-- 43_dice.md R143: DCLR, word 0xA0000000, discards the current word and the last index; it is legal with WLV = 0. -/
def Obligations.DclrDiscardsWord : Prop :=
  encode .dclr = 0xA0000000 ∧ ∀ s : State, exec .dclr s = .next
    { s with
      dice := { s.dice with dacc := 0, dcnt := 0, didx := 0, dv := false }
      rsp := some ⟨false, 0⟩ }

/-! ### Frames -/

/-- The frame of the commands that write nothing (NOP, RDREG, RDCHK): every element is unchanged, unless RDCHK faults,
and then only FAULT and FCAUSE change; and a second one gives the same response (20_memory.md R69). That an absent entry
below NCHUNK faults with BAD_INDEX is the model's choice of cause (log entry 8). -/
def Obligations.ReadCommandsFrame : Prop :=
  ∀ (i : Instr) (s t : State), (i = .nop ∨ (∃ r, i = .rdreg r) ∨ ∃ k, i = .rdchk k) → exec i s = .next t →
    t.ent = s.ent ∧ t.dice = s.dice ∧ t.inputs = s.inputs ∧ t.hashUnit = s.hashUnit ∧
      (t.flt = s.flt → exec i t = .next t) ∧
      (t.flt ≠ s.flt → t.flt = ⟨true, 5⟩ ∧
        ∃ k : BitVec 5, i = .rdchk k ∧ (s.ent.nchunk.toNat ≤ k.toNat ∨ readChunk s.ent k.toNat = none))

/-- The frame of the entropy-path commands when they do not fault: the dice path, the fault elements and the ports are
unchanged, and of the entropy path everything but what each names. The entry that EBYTE stores its byte to is
EBUF[ELEN]; the entry that EBYTE and EFIN may store a chunk to is CHUNK[NCHUNK]; MERGE stores to CHUNK[NCHUNK-1]. -/
def Obligations.EntropyCommandsFrame : Prop :=
  ∀ (s t : State),
    (∀ i, isEntropyCommand i = true → exec i s = .next t →
      t.dice = s.dice ∧ t.inputs = s.inputs ∧ t.hashUnit = s.hashUnit ∧ (t.flt = s.flt ∨ ∃ c, t = raise c s)) ∧
    (∀ b, exec (.ebyte b) s = .next t → 1 ≤ s.ent.need.toNat →
      t.ent.left = s.ent.left ∧ t.ent.fin = s.ent.fin ∧ t.ent.csbits = s.ent.csbits ∧ t.ent.dmsb = s.ent.dmsb ∧
      t.ent.cs = s.ent.cs ∧ t.ent.csv = s.ent.csv ∧ t.ent.mrg = s.ent.mrg ∧
      (∀ j, j ≠ s.ent.elen.toNat → readEbuf t.ent j = readEbuf s.ent j) ∧
      (∀ j, j ≠ s.ent.nchunk.toNat → readChunk t.ent j = readChunk s.ent j) ∧
      (t.ent.nchunk = s.ent.nchunk → t.ent.chunk = s.ent.chunk)) ∧
    (exec .efin s = .next t →
      t.ent.ebuf = s.ent.ebuf ∧ t.ent.elen = s.ent.elen ∧ t.ent.csbits = s.ent.csbits ∧ t.ent.dmsb = s.ent.dmsb ∧
      t.ent.cs = s.ent.cs ∧ t.ent.csv = s.ent.csv ∧ t.ent.mrg = s.ent.mrg ∧
      (∀ j, j ≠ s.ent.nchunk.toNat → readChunk t.ent j = readChunk s.ent j) ∧
      (s.ent.need = 11 → t.ent.chunk = s.ent.chunk ∧ t.ent.nchunk = s.ent.nchunk)) ∧
    (exec .cksum s = .next t →
      t.ent.ebuf = s.ent.ebuf ∧ t.ent.elen = s.ent.elen ∧ t.ent.acc = s.ent.acc ∧ t.ent.need = s.ent.need ∧
      t.ent.chunk = s.ent.chunk ∧ t.ent.nchunk = s.ent.nchunk ∧ t.ent.left = s.ent.left ∧ t.ent.fin = s.ent.fin ∧
      t.ent.mrg = s.ent.mrg) ∧
    (exec .merge s = .next t →
      t.ent.ebuf = s.ent.ebuf ∧ t.ent.elen = s.ent.elen ∧ t.ent.acc = s.ent.acc ∧ t.ent.need = s.ent.need ∧
      t.ent.nchunk = s.ent.nchunk ∧ t.ent.left = s.ent.left ∧ t.ent.fin = s.ent.fin ∧ t.ent.csbits = s.ent.csbits ∧
      t.ent.dmsb = s.ent.dmsb ∧ t.ent.cs = s.ent.cs ∧ t.ent.csv = s.ent.csv ∧
      ∀ j, j ≠ s.ent.nchunk.toNat - 1 → readChunk t.ent j = readChunk s.ent j)

/-- The frame of the dice-path commands when they do not fault: the entropy path, the fault elements and the ports are
unchanged, and DCHAR and DCLR leave WLEN, WLV and NDICE; DCHAR writes DIDX only when it completes a word: not
on noise, not with WLV = 0, and not on a digit before the last. -/
def Obligations.DiceCommandsFrame : Prop :=
  ∀ (s t : State),
    (∀ i, isDiceCommand i = true → exec i s = .next t →
      t.ent = s.ent ∧ t.inputs = s.inputs ∧ t.hashUnit = s.hashUnit ∧ (t.flt = s.flt ∨ ∃ c, t = raise c s)) ∧
    (∀ i, (i = .dclr ∨ ∃ c, i = .dchar c) → exec i s = .next t →
      t.dice.wlen = s.dice.wlen ∧ t.dice.wlv = s.dice.wlv ∧ t.dice.ndice = s.dice.ndice) ∧
    ∀ c, exec (.dchar c) s = .next t →
      (faceDigit c = none ∨ s.dice.wlv = false ∨ s.dice.dcnt.toNat + 1 ≠ s.dice.ndice.toNat) →
        t.dice.didx = s.dice.didx

/-- The two paths are independent (70_reset_and_hazards.md R176): what a command of one path does to its path, and its
response, depend on that path (and the hash port) alone; and two commands that do not fault can change places. -/
def Obligations.PathsAreIndependent : Prop :=
  (∀ (i : Instr) (s1 s2 t1 : State), isEntropyCommand i = true → s1.ent = s2.ent → s1.hashUnit = s2.hashUnit →
    exec i s1 = .next t1 → ∃ t2, exec i s2 = .next t2 ∧ t2.ent = t1.ent ∧ t2.rsp = t1.rsp ∧ t2.dice = s2.dice) ∧
  (∀ (i : Instr) (s1 s2 t1 : State), isDiceCommand i = true → s1.dice = s2.dice →
    exec i s1 = .next t1 → ∃ t2, exec i s2 = .next t2 ∧ t2.dice = t1.dice ∧ t2.rsp = t1.rsp ∧ t2.ent = s2.ent) ∧
  ∀ (i j : Instr) (s s1 s2 : State), isEntropyCommand i = true → isDiceCommand j = true → s.flt.fault = false →
    exec i s = .next s1 → exec j s1 = .next s2 → s2.flt.fault = false →
    ∃ r1 r2, exec j s = .next r1 ∧ exec i r1 = .next r2 ∧ r2.ent = s2.ent ∧ r2.dice = s2.dice ∧ r2.flt = s2.flt ∧
      r1.rsp = s2.rsp ∧ r2.rsp = s1.rsp

/-! ### Invariants -/

/-- The invariants hold at reset (10_state.md R51). -/
def Obligations.InvariantsHoldAtReset : Prop := Inv State.reset ∧ StreamInv State.reset

/-- Every step keeps the invariants of 10_state.md R51 and R52. -/
def Obligations.StepKeepsInvariants : Prop := ∀ s t : State, Inv s → step s = .next t → Inv t

/-- Every step keeps the contents of the entropy path: CHUNK and ACC hold the bits of EBUF most significant first, then
the checksum bits once merged (20_memory.md R65, R74), and DMSB is the digest's first byte, for every function HASH. -/
def Obligations.StepKeepsStreams : Prop :=
  ∀ s t : State, Inv s → StreamInv s → step s = .next t → StreamInv t

/-- 40_checksum.md R111: for every valid ELEN the CSBITS that CKSUM computes equals the LEFT that EFIN left, so MERGE
never raises CHECKSUM_MISMATCH. -/
def Obligations.ChecksumCountEqualsLeft : Prop :=
  ∀ s t : State, Inv s →
    (s.ent.csv = false → exec .cksum s = .next t → t.ent.csv = true → t.ent.csbits = s.ent.left) ∧
    (exec .merge s = .next t → s.flt.fault = false → t.flt.fcause ≠ Cause.code .checksumMismatch)

/-- 41_chunker.md R122: in each phase exactly the listed commands raise SEQUENCE; ECLR and RST return to the first
phase from any, and RDCHK is legal in every phase. -/
def Obligations.PhasesGateCommands : Prop :=
  (∀ (s t : State) (i : Instr), Inv s → s.flt.fault = false → isEntropyCommand i = true → exec i s = .next t →
    (t.flt.fcause = Cause.code .sequence ↔ outOfPhase (phase s.ent) i = true)) ∧
  ∀ s t : State, (exec .eclr s = .next t ∨ exec .rst s = .next t ∨ t = hardwareReset s) → phase t.ent = .filling

/-- A second EFIN, CKSUM or MERGE raises SEQUENCE (20_memory.md R69), whatever state the first left. -/
def Obligations.RepeatedPhaseCommandsFault : Prop :=
  ∀ (i : Instr) (s t : State), (i = .efin ∨ i = .cksum ∨ i = .merge) → exec i s = .next t →
    t.flt.fault = false → exec i t = .next (raise .sequence t)

/-- 40_checksum.md R112: the same EBUF contents give the same DMSB and CS, whatever function HASH is. -/
def Obligations.ChecksumIsFunctionOfEntropy : Prop :=
  ∀ s1 s2 t1 t2 : State, s1.ent.ebuf = s2.ent.ebuf → s1.ent.elen = s2.ent.elen → s1.hashUnit = s2.hashUnit →
    s1.flt.fault = false → s2.flt.fault = false →
    exec .cksum s1 = .next t1 → exec .cksum s2 = .next t2 → t1.flt.fault = false → t2.flt.fault = false →
    t1.ent.dmsb = t2.ent.dmsb ∧ t1.ent.cs = t2.ent.cs

/-! ### Lengths, sequences of commands and dice words -/

/-- 43_dice.md R139: which lengths are legal, N(L) = max(a, b) as the smallest N ≥ 1 with L a divisor of 6^N, and the
list of the 93 legal values. -/
def Obligations.LegalLengthsAndDiceCount : Prop :=
  legalLengths.length = 93 ∧
  ∀ len : Half,
    (legalLength len = true ↔ 2 ≤ len.toNat ∧ ∃ a b, len.toNat = 2 ^ a * 3 ^ b) ∧
    (legalLength len = true ↔ len.toNat ∈ legalLengths) ∧
    (∀ a b, legalLength len = true → len.toNat = 2 ^ a * 3 ^ b → diceCount len = max a b) ∧
    (legalLength len = true → IsLeast {n | 1 ≤ n ∧ len.toNat ∣ 6 ^ n} (diceCount len) ∧ diceCount len ≤ 15)

/-- 41_chunker.md R123: from a clear entropy path, n EBYTEs give the closed form, and EFIN flushes it. The host's later
commands (`rest`) stay pending. -/
def Obligations.ChunkerClosedForm : Prop :=
  ∀ (s : State) (bs : List Byte) (rest : List HostEvent), s.ent = State.reset.ent → s.flt.fault = false →
    bs.length ≤ 32 →
    (s.inputs = sends (bs.map .ebyte) ++ rest → ∃ t, steps bs.length s = .next t ∧
      t.ent.elen.toNat = bs.length ∧ t.ent.nchunk.toNat = 8 * bs.length / 11 ∧
      (∀ j < t.ent.nchunk.toNat, readChunk t.ent j = some (chunkAt (streamBits bs) j)) ∧
      t.ent.need.toNat = 11 - 8 * bs.length % 11 ∧
      t.ent.acc.toNat = bitsValue ((streamBits bs).drop (8 * bs.length - 8 * bs.length % 11)) ∧
      t.dice = s.dice ∧ t.flt = s.flt ∧ t.inputs = rest) ∧
    (s.inputs = sends (bs.map .ebyte ++ [.efin]) ++ rest → ∃ t, steps (bs.length + 1) s = .next t ∧
      t.ent.left.toNat = (11 - 8 * bs.length % 11) % 11 ∧
      (8 * bs.length % 11 ≠ 0 → ∃ v : Chunk, readChunk t.ent (8 * bs.length / 11) = some v ∧
        v.toNat = bitsValue ((streamBits bs).drop (8 * bs.length - 8 * bs.length % 11)) *
          2 ^ (11 - 8 * bs.length % 11)) ∧
      t.inputs = rest)

/-- 42_entropy_mapper.md R132 and R133, with the sequence of 70_reset_and_hazards.md R174, for every function HASH: ECLR,
the entropy bytes, EFIN, CKSUM and MERGE leave 12, 15, 18, 21 or 24 chunks, which are the entropy bits followed by the
leading checksum bits of the digest. -/
def Obligations.MnemonicSequence : Prop :=
  ∀ (s : State) (bs : List Byte) (rest : List HostEvent), s.flt.fault = false →
    bs.length ∈ [16, 20, 24, 28, 32] →
    s.inputs = sends (.eclr :: bs.map .ebyte ++ [.efin, .cksum, .merge]) ++ rest →
    ∃ (t : State) (cs : Byte), steps (bs.length + 4) s = .next t ∧
      cs.toNat = (hashDigest s.hashUnit bs).toNat / 2 ^ 248 / 2 ^ (8 - bs.length / 4) ∧
      11 * t.ent.nchunk.toNat = 8 * bs.length + bs.length / 4 ∧
      t.ent.nchunk.toNat ∈ [12, 15, 18, 21, 24] ∧
      (∀ j < t.ent.nchunk.toNat,
        readChunk t.ent j = some (chunkAt (streamBits bs ++ checksumStream cs (bs.length / 4)) j)) ∧
      (∃ v : Chunk, readChunk t.ent (t.ent.nchunk.toNat - 1) = some v ∧
        v.toNat = bitsValue ((streamBits bs).drop (8 * bs.length - (11 - bs.length / 4))) * 2 ^ (bs.length / 4) +
          cs.toNat) ∧
      t.dice = s.dice ∧ t.flt = s.flt ∧ t.inputs = rest

/-- 43_dice.md R144: a word is complete after exactly NDICE accepted digits, whatever noise comes between them, and DIDX
is then the base-6 value of those digits mod WLEN. -/
def Obligations.DiceWordCompletes : Prop :=
  ∀ (s : State) (cs : List Byte) (rest : List HostEvent), DiceInv s.dice → s.flt.fault = false →
    s.dice.wlv = true → s.dice.dcnt = 0 → s.inputs = sends (cs.map .dchar) ++ rest →
    (throws cs).length = s.dice.ndice.toNat →
    ∃ t, steps cs.length s = .next t ∧ t.dice.dv = true ∧ t.dice.dcnt = 0 ∧ t.dice.dacc = 0 ∧
      t.dice.didx.toNat = base6 (throws cs) % s.dice.wlen.toNat ∧
      t.ent = s.ent ∧ t.flt = s.flt ∧ t.inputs = rest

/-- 43_dice.md R145: a word for which fewer than NDICE digits arrive is not completed and DV stays 0; the digits so far
stand in DACC, most significant throw first (10_state.md R41, R42). -/
def Obligations.PartialDiceWordStaysOpen : Prop :=
  ∀ (s : State) (cs : List Byte) (rest : List HostEvent), DiceInv s.dice → s.flt.fault = false →
    s.dice.wlv = true → s.dice.dcnt = 0 → s.dice.dv = false → s.inputs = sends (cs.map .dchar) ++ rest →
    (throws cs).length < s.dice.ndice.toNat →
    ∃ t, steps cs.length s = .next t ∧ t.dice.dv = false ∧ t.dice.dcnt.toNat = (throws cs).length ∧
      t.dice.dacc.toNat = base6 (throws cs) ∧ t.dice.didx = s.dice.didx ∧ t.inputs = rest

/-- 43_dice.md R141: with WLEN = 6^NDICE the index of a completed word is the value itself. Over runs of NDICE DCHARs from
an empty word, each index in [0, WLEN) is DIDX after exactly 6^NDICE / WLEN sequences of throws, which is one sequence
where WLEN = 6^NDICE. The last two clauses are the facts about base-6 values behind this, for every legal length; they
name no command, and DiceWordCompletes connects them to DIDX. -/
def Obligations.DiceIndexIsUnbiased : Prop :=
  (∀ (s : State) (c : Byte), DiceInv s.dice → s.dice.wlv = true → s.dice.wlen.toNat = 6 ^ s.dice.ndice.toNat →
    0x31 ≤ c.toNat → c.toNat ≤ 0x36 → s.dice.dcnt.toNat + 1 = s.dice.ndice.toNat →
    ∃ t, exec (.dchar c) s = .next t ∧ t.dice.didx.toNat = s.dice.dacc.toNat * 6 + (c.toNat - 0x31)) ∧
  (∀ s : State, DiceInv s.dice → s.flt.fault = false → s.dice.wlv = true → s.dice.dcnt = 0 →
    (s.dice.wlen.toNat = 6 ^ s.dice.ndice.toNat →
      ∀ v < s.dice.wlen.toNat, ∃! f : Fin s.dice.ndice.toNat → Fin 6, indexAfter s f = some v) ∧
    ∀ v < s.dice.wlen.toNat,
      (Finset.univ.filter fun f : Fin s.dice.ndice.toNat → Fin 6 => indexAfter s f = some v).card =
        6 ^ s.dice.ndice.toNat / s.dice.wlen.toNat) ∧
  (∀ len n, LegalWith len n → len = 6 ^ n →
    ∀ v < len, ∃! f : Fin n → Fin 6, base6 (List.ofFn fun k => (f k).val) = v) ∧
  ∀ len n, LegalWith len n → ∀ v < len,
    (Finset.univ.filter fun f : Fin n → Fin 6 => base6 (List.ofFn fun k => (f k).val) % len = v).card = 6 ^ n / len
end

