-- ==== Sys2Proof/Laws/State.lean ====
section
/-! SUPPORT. One lemma for each field under each update of Machine/Ops.lean, true by rfl, so that no later proof unfolds a
record update. -/

namespace Sys2Proof.Machine

@[simp] theorem State.setEnt_ent (s : State) (e : EntropyPath) : (s.setEnt e).ent = e := rfl
@[simp] theorem State.setEnt_dice (s : State) (e : EntropyPath) : (s.setEnt e).dice = s.dice := rfl
@[simp] theorem State.setEnt_flt (s : State) (e : EntropyPath) : (s.setEnt e).flt = s.flt := rfl
@[simp] theorem State.setEnt_inputs (s : State) (e : EntropyPath) : (s.setEnt e).inputs = s.inputs := rfl
@[simp] theorem State.setEnt_rsp (s : State) (e : EntropyPath) : (s.setEnt e).rsp = s.rsp := rfl
@[simp] theorem State.setEnt_hashUnit (s : State) (e : EntropyPath) : (s.setEnt e).hashUnit = s.hashUnit := rfl

@[simp] theorem State.setDice_ent (s : State) (d : DicePath) : (s.setDice d).ent = s.ent := rfl
@[simp] theorem State.setDice_dice (s : State) (d : DicePath) : (s.setDice d).dice = d := rfl
@[simp] theorem State.setDice_flt (s : State) (d : DicePath) : (s.setDice d).flt = s.flt := rfl
@[simp] theorem State.setDice_inputs (s : State) (d : DicePath) : (s.setDice d).inputs = s.inputs := rfl
@[simp] theorem State.setDice_rsp (s : State) (d : DicePath) : (s.setDice d).rsp = s.rsp := rfl
@[simp] theorem State.setDice_hashUnit (s : State) (d : DicePath) : (s.setDice d).hashUnit = s.hashUnit := rfl

@[simp] theorem State.setFlt_ent (s : State) (f : FaultUnit) : (s.setFlt f).ent = s.ent := rfl
@[simp] theorem State.setFlt_dice (s : State) (f : FaultUnit) : (s.setFlt f).dice = s.dice := rfl
@[simp] theorem State.setFlt_flt (s : State) (f : FaultUnit) : (s.setFlt f).flt = f := rfl
@[simp] theorem State.setFlt_inputs (s : State) (f : FaultUnit) : (s.setFlt f).inputs = s.inputs := rfl
@[simp] theorem State.setFlt_rsp (s : State) (f : FaultUnit) : (s.setFlt f).rsp = s.rsp := rfl
@[simp] theorem State.setFlt_hashUnit (s : State) (f : FaultUnit) : (s.setFlt f).hashUnit = s.hashUnit := rfl

@[simp] theorem State.setInputs_ent (s : State) (l : List HostEvent) : (s.setInputs l).ent = s.ent := rfl
@[simp] theorem State.setInputs_dice (s : State) (l : List HostEvent) : (s.setInputs l).dice = s.dice := rfl
@[simp] theorem State.setInputs_flt (s : State) (l : List HostEvent) : (s.setInputs l).flt = s.flt := rfl
@[simp] theorem State.setInputs_inputs (s : State) (l : List HostEvent) : (s.setInputs l).inputs = l := rfl
@[simp] theorem State.setInputs_rsp (s : State) (l : List HostEvent) : (s.setInputs l).rsp = s.rsp := rfl
@[simp] theorem State.setInputs_hashUnit (s : State) (l : List HostEvent) : (s.setInputs l).hashUnit = s.hashUnit := rfl

@[simp] theorem State.setRsp_ent (s : State) (r : Option Response) : (s.setRsp r).ent = s.ent := rfl
@[simp] theorem State.setRsp_dice (s : State) (r : Option Response) : (s.setRsp r).dice = s.dice := rfl
@[simp] theorem State.setRsp_flt (s : State) (r : Option Response) : (s.setRsp r).flt = s.flt := rfl
@[simp] theorem State.setRsp_inputs (s : State) (r : Option Response) : (s.setRsp r).inputs = s.inputs := rfl
@[simp] theorem State.setRsp_rsp (s : State) (r : Option Response) : (s.setRsp r).rsp = r := rfl
@[simp] theorem State.setRsp_hashUnit (s : State) (r : Option Response) : (s.setRsp r).hashUnit = s.hashUnit := rfl

@[simp] theorem respond_ent (err : Bool) (data : Half) (s : State) : (respond err data s).ent = s.ent := rfl
@[simp] theorem respond_dice (err : Bool) (data : Half) (s : State) : (respond err data s).dice = s.dice := rfl
@[simp] theorem respond_flt (err : Bool) (data : Half) (s : State) : (respond err data s).flt = s.flt := rfl
@[simp] theorem respond_inputs (err : Bool) (data : Half) (s : State) : (respond err data s).inputs = s.inputs := rfl
@[simp] theorem respond_rsp (err : Bool) (data : Half) (s : State) : (respond err data s).rsp = some ⟨err, data⟩ := rfl
@[simp] theorem respond_hashUnit (err : Bool) (data : Half) (s : State) : (respond err data s).hashUnit = s.hashUnit := rfl

@[simp] theorem raise_ent (c : Cause) (s : State) : (raise c s).ent = s.ent := rfl
@[simp] theorem raise_dice (c : Cause) (s : State) : (raise c s).dice = s.dice := rfl
@[simp] theorem raise_flt (c : Cause) (s : State) : (raise c s).flt = ⟨true, c.code⟩ := rfl
@[simp] theorem raise_inputs (c : Cause) (s : State) : (raise c s).inputs = s.inputs := rfl
@[simp] theorem raise_rsp (c : Cause) (s : State) : (raise c s).rsp = some ⟨true, c.code.setWidth 16⟩ := rfl
@[simp] theorem raise_hashUnit (c : Cause) (s : State) : (raise c s).hashUnit = s.hashUnit := rfl

@[simp] theorem refuse_ent (s : State) : (refuse s).ent = s.ent := rfl
@[simp] theorem refuse_dice (s : State) : (refuse s).dice = s.dice := rfl
@[simp] theorem refuse_flt (s : State) : (refuse s).flt = s.flt := rfl
@[simp] theorem refuse_inputs (s : State) : (refuse s).inputs = s.inputs := rfl
@[simp] theorem refuse_rsp (s : State) : (refuse s).rsp = some ⟨true, s.flt.fcause.setWidth 16⟩ := rfl
@[simp] theorem refuse_hashUnit (s : State) : (refuse s).hashUnit = s.hashUnit := rfl

@[simp] theorem resetElements_ent (s : State) : (resetElements s).ent = .reset := rfl
@[simp] theorem resetElements_dice (s : State) : (resetElements s).dice = .reset := rfl
@[simp] theorem resetElements_flt (s : State) : (resetElements s).flt = .reset := rfl
@[simp] theorem resetElements_inputs (s : State) : (resetElements s).inputs = s.inputs := rfl
@[simp] theorem resetElements_rsp (s : State) : (resetElements s).rsp = s.rsp := rfl
@[simp] theorem resetElements_hashUnit (s : State) : (resetElements s).hashUnit = s.hashUnit := rfl

@[simp] theorem hardwareReset_ent (s : State) : (hardwareReset s).ent = .reset := rfl
@[simp] theorem hardwareReset_dice (s : State) : (hardwareReset s).dice = .reset := rfl
@[simp] theorem hardwareReset_flt (s : State) : (hardwareReset s).flt = .reset := rfl
@[simp] theorem hardwareReset_inputs (s : State) : (hardwareReset s).inputs = s.inputs := rfl
@[simp] theorem hardwareReset_rsp (s : State) : (hardwareReset s).rsp = none := rfl
@[simp] theorem hardwareReset_hashUnit (s : State) : (hardwareReset s).hashUnit = s.hashUnit := rfl

@[simp] theorem accept_ent (rest : List HostEvent) (s : State) : (accept rest s).ent = s.ent := rfl
@[simp] theorem accept_dice (rest : List HostEvent) (s : State) : (accept rest s).dice = s.dice := rfl
@[simp] theorem accept_flt (rest : List HostEvent) (s : State) : (accept rest s).flt = s.flt := rfl
@[simp] theorem accept_inputs (rest : List HostEvent) (s : State) : (accept rest s).inputs = rest := rfl
@[simp] theorem accept_rsp (rest : List HostEvent) (s : State) : (accept rest s).rsp = none := rfl
@[simp] theorem accept_hashUnit (rest : List HostEvent) (s : State) : (accept rest s).hashUnit = s.hashUnit := rfl

end Sys2Proof.Machine
end

