-- ==== Sys2Proof/Laws/Ops.lean ====
section
/-! SUPPORT. What the shared operations do: the two arrays, emitting and appending, the hash message, admission. -/

namespace Sys2Proof.Machine

/-! ### The arrays -/

theorem writeEbuf_of_lt {i : Nat} (h : i < 32) (e : EntropyPath) (b : Byte) :
    writeEbuf e i b = some { e with ebuf := e.ebuf.set i (some b) h } := by
  simp [writeEbuf, h]

theorem writeChunk_of_lt {i : Nat} (h : i < 24) (e : EntropyPath) (v : Chunk) :
    writeChunk e i v = some { e with chunk := e.chunk.set i (some v) h } := by
  simp [writeChunk, h]

theorem readEbuf_set {i : Nat} (h : i < 32) (e : EntropyPath) (b : Byte) (j : Nat) :
    (e.ebuf.set i (some b) h)[j]?.join = if j = i then some b else readEbuf e j := by
  unfold readEbuf
  by_cases hj : i = j
  · subst hj; simp [h]
  · simp [Vector.getElem?_set_ne _ hj, Ne.symm hj]

theorem readChunk_set {i : Nat} (h : i < 24) (e : EntropyPath) (v : Chunk) (j : Nat) :
    (e.chunk.set i (some v) h)[j]?.join = if j = i then some v else readChunk e j := by
  unfold readChunk
  by_cases hj : i = j
  · subst hj; simp [h]
  · simp [Vector.getElem?_set_ne _ hj, Ne.symm hj]

/-- A read of EBUF after a write. -/
theorem readEbuf_writeEbuf {e e' : EntropyPath} {i : Nat} {b : Byte} (h : writeEbuf e i b = some e') (j : Nat) :
    readEbuf e' j = if j = i then some b else readEbuf e j := by
  unfold writeEbuf at h
  split at h
  · rename_i hi; cases h; exact readEbuf_set hi e b j
  · cases h

/-- A read of CHUNK after a write. -/
theorem readChunk_writeChunk {e e' : EntropyPath} {i : Nat} {v : Chunk} (h : writeChunk e i v = some e') (j : Nat) :
    readChunk e' j = if j = i then some v else readChunk e j := by
  unfold writeChunk at h
  split at h
  · rename_i hi; cases h; exact readChunk_set hi e v j
  · cases h

@[simp] theorem readEbuf_reset (i : Nat) : readEbuf .reset i = none := by
  unfold readEbuf EntropyPath.reset
  by_cases h : i < 32 <;> simp [h]

@[simp] theorem readChunk_reset (i : Nat) : readChunk .reset i = none := by
  unfold readChunk EntropyPath.reset
  by_cases h : i < 24 <;> simp [h]

/-! ### Emitting a chunk and appending a byte -/

theorem ofNat_toNat_succ {n : Nat} (x : BitVec n) : BitVec.ofNat n (x.toNat + 1) = x + 1 := by
  apply BitVec.eq_of_toNat_eq
  simp [BitVec.toNat_add]

theorem emitChunk_of_lt {e : EntropyPath} (h : e.nchunk.toNat < 24) (v : Chunk) :
    emitChunk v e =
      some { e with chunk := e.chunk.set e.nchunk.toNat (some v) h, nchunk := e.nchunk + 1 } := by
  simp [emitChunk, writeChunk_of_lt h, ofNat_toNat_succ]

/-- Everything that emitting a chunk can do. -/
theorem emitChunk_cases {e e' : EntropyPath} {v : Chunk} (h : emitChunk v e = some e') :
    ∃ hc : e.nchunk.toNat < 24,
      e' = { e with chunk := e.chunk.set e.nchunk.toNat (some v) hc, nchunk := e.nchunk + 1 } := by
  by_cases hc : e.nchunk.toNat < 24
  · rw [emitChunk_of_lt hc] at h
    exact ⟨hc, (Option.some.inj h).symm⟩
  · simp [emitChunk, writeChunk, hc] at h

theorem appendByte_of_lt {e : EntropyPath} (h : e.elen.toNat < 32) (b : Byte) :
    appendByte b e = some { e with ebuf := e.ebuf.set e.elen.toNat (some b) h, elen := e.elen + 1 } := by
  simp [appendByte, writeEbuf_of_lt h, ofNat_toNat_succ]

/-- Everything that appending a byte can do. -/
theorem appendByte_cases {e e' : EntropyPath} {b : Byte} (h : appendByte b e = some e') :
    ∃ hc : e.elen.toNat < 32,
      e' = { e with ebuf := e.ebuf.set e.elen.toNat (some b) hc, elen := e.elen + 1 } := by
  by_cases hc : e.elen.toNat < 32
  · rw [appendByte_of_lt hc] at h
    exact ⟨hc, (Option.some.inj h).symm⟩
  · simp [appendByte, writeEbuf, hc] at h

/-! ### The message -/

theorem mapM_range_eq_some {α : Type} (f : Nat → Option α) (n : Nat) (m : List α) :
    (List.range n).mapM f = some m ↔ m.length = n ∧ ∀ i < n, f i = m[i]? := by
  induction n generalizing m with
  | zero => simp [List.length_eq_zero_iff, eq_comm]
  | succ n ih =>
    rw [List.range_succ, List.mapM_append]
    simp only [List.mapM_cons, List.mapM_nil, Option.bind_eq_bind, Option.pure_def,
      Option.bind_eq_some_iff, Option.some.injEq]
    constructor
    · rintro ⟨a, ha, l, ⟨x, hx, y, rfl, rfl⟩, rfl⟩
      obtain ⟨hlen, hget⟩ := (ih a).1 ha
      refine ⟨by simp [hlen], fun i hi => ?_⟩
      rcases Nat.lt_succ_iff_lt_or_eq.1 hi with h | rfl
      · rw [hget i h, List.getElem?_append_left (by omega)]
      · subst hlen; simp [hx]
    · rintro ⟨hlen, hget⟩
      refine ⟨m.take n, (ih _).2 ⟨by simp [hlen], fun i hi => ?_⟩, [m[n]], ⟨m[n], ?_, [], rfl, rfl⟩, ?_⟩
      · rw [hget i (by omega), List.getElem?_take_of_lt hi]
      · rw [hget n (by omega), List.getElem?_eq_getElem (by omega)]
      · rw [List.take_append_getElem]; exact List.take_of_length_le (by omega)

/-- The message of the hash port is the first ELEN entries of EBUF, in order (20_memory.md R64). -/
theorem message_eq_some_iff (e : EntropyPath) (m : List Byte) :
    message e = some m ↔ m.length = e.elen.toNat ∧ ∀ i < e.elen.toNat, readEbuf e i = m[i]? :=
  mapM_range_eq_some _ _ _

/-- The message is there exactly when every entry below ELEN holds a value. -/
theorem message_isSome {e : EntropyPath} (h : ∀ i < e.elen.toNat, (readEbuf e i).isSome) :
    ∃ m, message e = some m := by
  refine ⟨(List.range e.elen.toNat).map fun i => (readEbuf e i).getD 0, (message_eq_some_iff _ _).2 ⟨by simp, ?_⟩⟩
  intro i hi
  obtain ⟨b, hb⟩ := Option.isSome_iff_exists.1 (h i hi)
  simp [hb, hi]

/-! ### Admission -/

theorem admission_execute {w : Word} {s : State} {i : Instr} (hd : decode w = .ok i)
    (h : s.flt.fault = false ∨ runsInFaultState i = true) : admission w s = some (some i) := by
  unfold admission
  rw [hd]
  cases hf : s.flt.fault <;> simp_all

theorem admission_refuse {w : Word} {s : State} (hf : s.flt.fault = true)
    (h : ∀ i, decode w = .ok i → runsInFaultState i = false) : admission w s = none := by
  unfold admission
  rw [hf]
  cases hd : decode w with
  | ok i => simp [h i hd]
  | error e => rfl

theorem admission_illegal {w : Word} {s : State} {e : DecodeError} (hd : decode w = .error e)
    (hf : s.flt.fault = false) : admission w s = some none := by
  simp [admission, hd, hf]

/-- The three commands that run in the fault state (60_exceptions.md R164). -/
theorem runsInFaultState_iff (i : Instr) :
    runsInFaultState i = true ↔ i = .nop ∨ i = .rst ∨ ∃ r, i = .rdreg r := by
  cases i <;> simp [runsInFaultState]

end Sys2Proof.Machine
end

