-- ==== Sys2Proof/Laws/Chunker.lean ====
section
/-! SUPPORT. The chunker's loop in closed form (41_chunker.md R124, R125): one round where NEED > 8, one round that emits
where NEED = 8, two rounds where NEED < 8. -/

namespace Sys2Proof.Machine

/-- The bits a round takes, as arithmetic: the top k of the low rem bits. -/
theorem nextBits_eq (b : Byte) (rem k : Nat) : nextBits b rem k = b.toNat / 2 ^ (rem - k) % 2 ^ k := by
  unfold nextBits
  rw [Nat.one_shiftLeft, Nat.and_two_pow_sub_one_eq_mod, Nat.shiftRight_eq_div_pow]

theorem takeBits_acc (b : Byte) (rem k : Nat) (e : EntropyPath) :
    (takeBits b rem k e).acc.toNat = (e.acc.toNat * 2 ^ k + b.toNat / 2 ^ (rem - k) % 2 ^ k) % 2 ^ 11 := by
  have h : nextBits b rem k < 2 ^ k := by rw [nextBits_eq]; exact Nat.mod_lt _ (Nat.two_pow_pos k)
  simp only [takeBits, BitVec.toNat_ofNat]
  rw [← Nat.shiftLeft_add_eq_or_of_lt h, Nat.shiftLeft_eq, nextBits_eq]

theorem takeBits_need (b : Byte) (rem k : Nat) (e : EntropyPath) :
    (takeBits b rem k e).need.toNat = e.need.toNat - k := by
  have := e.need.isLt
  simp only [takeBits, BitVec.toNat_ofNat]
  omega

@[simp] theorem takeBits_nchunk (b : Byte) (rem k : Nat) (e : EntropyPath) :
    (takeBits b rem k e).nchunk = e.nchunk := rfl
@[simp] theorem takeBits_chunk (b : Byte) (rem k : Nat) (e : EntropyPath) :
    (takeBits b rem k e).chunk = e.chunk := rfl

/-- ACC loses no bit (41_chunker.md R125). -/
theorem takeBits_acc_of_lt {b : Byte} {rem k : Nat} {e : EntropyPath} (hk : k ≤ e.need.toNat) (hn : e.need.toNat ≤ 11)
    (ha : e.acc.toNat < 2 ^ (11 - e.need.toNat)) :
    (takeBits b rem k e).acc.toNat = e.acc.toNat * 2 ^ k + b.toNat / 2 ^ (rem - k) % 2 ^ k := by
  rw [takeBits_acc, Nat.mod_eq_of_lt]
  have h1 : b.toNat / 2 ^ (rem - k) % 2 ^ k < 2 ^ k := Nat.mod_lt _ (Nat.two_pow_pos k)
  calc e.acc.toNat * 2 ^ k + b.toNat / 2 ^ (rem - k) % 2 ^ k
      < (e.acc.toNat + 1) * 2 ^ k := by rw [Nat.add_mul, Nat.one_mul]; omega
    _ ≤ 2 ^ (11 - e.need.toNat) * 2 ^ k := Nat.mul_le_mul_right _ ha
    _ = 2 ^ (11 - e.need.toNat + k) := (Nat.pow_add ..).symm
    _ ≤ 2 ^ 11 := Nat.pow_le_pow_right (by omega) (by omega)

/-- A round that does not emit. -/
theorem consumeBits_keep {n : Nat} {b : Byte} {rem : Nat} {e : EntropyPath} {out : Option Chunk} (h : rem < e.need.toNat)
    (h0 : 0 < rem) : consumeBits (n + 1) b rem e out = consumeBits n b 0 (takeBits b rem rem e) out := by
  have hmin : min e.need.toNat rem = rem := by omega
  have hne : ¬ (takeBits b rem rem e).need = 0 := by
    intro h'
    have := takeBits_need b rem rem e
    rw [h'] at this
    simp at this
    omega
  rw [consumeBits, if_neg (by omega)]
  simp only [hmin]
  rw [if_neg hne, Nat.sub_self]

/-- A round that emits. -/
theorem consumeBits_emit {n : Nat} {b : Byte} {rem : Nat} {e : EntropyPath} {out : Option Chunk} (h : e.need.toNat ≤ rem)
    (h0 : 0 < rem) (hc : e.nchunk.toNat < 24) :
    consumeBits (n + 1) b rem e out =
      consumeBits n b (rem - e.need.toNat)
        { takeBits b rem e.need.toNat e with
          chunk := e.chunk.set e.nchunk.toNat (some (takeBits b rem e.need.toNat e).acc) hc
          nchunk := e.nchunk + 1, acc := 0, need := 11 }
        (some (takeBits b rem e.need.toNat e).acc) := by
  have hmin : min e.need.toNat rem = e.need.toNat := by omega
  have hz : (takeBits b rem e.need.toNat e).need = 0 := by
    apply BitVec.eq_of_toNat_eq
    rw [takeBits_need]
    simp
  rw [consumeBits, if_neg (by omega)]
  simp only [hmin]
  rw [if_pos hz, emitChunk_of_lt (e := takeBits b rem e.need.toNat e) hc]
  rfl

@[simp] theorem consumeBits_zero (n : Nat) (b : Byte) (e : EntropyPath) (out : Option Chunk) :
    consumeBits (n + 1) b 0 e out = some (e, out) := by
  simp [consumeBits]

/-- A byte that completes no chunk (NEED > 8). -/
theorem takeByte_of_gt {e : EntropyPath} (he : e.elen.toNat < 32) (h : 8 < e.need.toNat) (b : Byte) :
    takeByte b e = some
      (takeBits b 8 8 { e with ebuf := e.ebuf.set e.elen.toNat (some b) he, elen := e.elen + 1 }, none) := by
  rw [takeByte, appendByte_of_lt he]
  simp only
  rw [consumeBits_keep (by simpa using h) (by omega), consumeBits_zero]

/-- A byte that completes a chunk (1 ≤ NEED ≤ 8): the chunk is ACC and the byte's first NEED bits, and ACC then holds
the byte's other bits. -/
theorem takeByte_of_le {e : EntropyPath} (he : e.elen.toNat < 32) (hc : e.nchunk.toNat < 24) (h1 : 1 ≤ e.need.toNat)
    (h : e.need.toNat ≤ 8) (b : Byte) :
    ∃ v a : Chunk,
      v.toNat = (e.acc.toNat * 2 ^ e.need.toNat + b.toNat / 2 ^ (8 - e.need.toNat)) % 2 ^ 11 ∧
      a.toNat = b.toNat % 2 ^ (8 - e.need.toNat) ∧
      takeByte b e = some
        ({ e with
            ebuf := e.ebuf.set e.elen.toNat (some b) he, elen := e.elen + 1, acc := a, need := e.need + 3
            chunk := e.chunk.set e.nchunk.toNat (some v) hc, nchunk := e.nchunk + 1 }, some v) := by
  set e1 : EntropyPath := { e with ebuf := e.ebuf.set e.elen.toNat (some b) he, elen := e.elen + 1 } with he1
  have hb := b.isLt
  have hv : (takeBits b 8 e.need.toNat e1).acc.toNat =
      (e.acc.toNat * 2 ^ e.need.toNat + b.toNat / 2 ^ (8 - e.need.toNat)) % 2 ^ 11 := by
    rw [takeBits_acc]
    congr 2
    apply Nat.mod_eq_of_lt
    rw [Nat.div_lt_iff_lt_mul (Nat.two_pow_pos _), ← Nat.pow_add]
    rw [show e.need.toNat + (8 - e.need.toNat) = 8 by omega]
    exact hb
  have hstep := consumeBits_emit (n := 9) (b := b) (rem := 8) (e := e1) (out := none) h (by omega) hc
  rw [takeByte, appendByte_of_lt he]
  have hneed3 : e.need.toNat + 3 < 16 := by omega
  have h11 : (11 : BitVec 4).toNat = 11 := rfl
  rcases Nat.lt_or_eq_of_le h with hlt | heq
  · set e2 : EntropyPath :=
      { takeBits b 8 e1.need.toNat e1 with
        chunk := e1.chunk.set e1.nchunk.toNat (some (takeBits b 8 e1.need.toNat e1).acc) hc
        nchunk := e1.nchunk + 1, acc := 0, need := 11 } with he2
    refine ⟨(takeBits b 8 e.need.toNat e1).acc, (takeBits b (8 - e.need.toNat) (8 - e.need.toNat) e2).acc, hv, ?_, ?_⟩
    · rw [takeBits_acc]
      have : b.toNat % 2 ^ (8 - e.need.toNat) < 2 ^ 11 :=
        Nat.lt_of_lt_of_le (Nat.mod_lt _ (Nat.two_pow_pos _)) (Nat.pow_le_pow_right (by omega) (by omega))
      simp [he2]
      exact this
    · simp only
      rw [hstep, consumeBits_keep (e := e2) (by simp [he2, he1]; omega) (by simp [he1]; omega), consumeBits_zero]
      have hn : BitVec.ofNat 4 (11 - (8 - e.need.toNat)) = e.need + 3 := by
        apply BitVec.eq_of_toNat_eq
        simp [BitVec.toNat_add]
        omega
      simp only [he2, he1, takeBits, h11, hn]
  · refine ⟨(takeBits b 8 e.need.toNat e1).acc, 0, hv, ?_, ?_⟩
    · rw [heq]; simp [Nat.mod_one]
    · have h8 : e1.need.toNat = 8 := heq
      simp only
      rw [hstep]
      simp only [h8, Nat.sub_self]
      rw [consumeBits_zero]
      have hn : e.need + 3 = 11 := by
        apply BitVec.eq_of_toNat_eq
        simp [BitVec.toNat_add, heq]
      simp only [he1, takeBits, hn, heq]

/-- Everything that taking a byte can do when NEED ≥ 1 (10_state.md R27). -/
theorem takeByte_cases {e e' : EntropyPath} {b : Byte} {done : Option Chunk} (hn : 1 ≤ e.need.toNat)
    (h : takeByte b e = some (e', done)) :
    ∃ he : e.elen.toNat < 32,
      ((8 < e.need.toNat ∧ done = none ∧
        e' = takeBits b 8 8 { e with ebuf := e.ebuf.set e.elen.toNat (some b) he, elen := e.elen + 1 }) ∨
      (e.need.toNat ≤ 8 ∧ ∃ hc : e.nchunk.toNat < 24, ∃ v a : Chunk,
      v.toNat = (e.acc.toNat * 2 ^ e.need.toNat + b.toNat / 2 ^ (8 - e.need.toNat)) % 2 ^ 11 ∧
      a.toNat = b.toNat % 2 ^ (8 - e.need.toNat) ∧ done = some v ∧
      e' = { e with
            ebuf := e.ebuf.set e.elen.toNat (some b) he, elen := e.elen + 1, acc := a, need := e.need + 3
            chunk := e.chunk.set e.nchunk.toNat (some v) hc, nchunk := e.nchunk + 1 })) := by
  have he : e.elen.toNat < 32 := by
    unfold takeByte at h
    split at h
    · cases h
    · rename_i heq; exact (appendByte_cases heq).1
  refine ⟨he, ?_⟩
  by_cases h8 : 8 < e.need.toNat
  · rw [takeByte_of_gt he h8] at h
    cases h; exact .inl ⟨h8, rfl, rfl⟩
  · by_cases hc : e.nchunk.toNat < 24
    · obtain ⟨v, a, hv, ha, ht⟩ := takeByte_of_le he hc hn (by omega) b
      rw [ht] at h; cases h
      exact .inr ⟨by omega, hc, v, a, hv, ha, rfl, rfl⟩
    · exfalso
      rw [takeByte, appendByte_of_lt he] at h
      simp only at h
      rw [consumeBits, if_neg (by omega)] at h
      set e1 : EntropyPath := { e with ebuf := e.ebuf.set e.elen.toNat (some b) he, elen := e.elen + 1 }
      have hmin : min e1.need.toNat 8 = e.need.toNat := by show min e.need.toNat 8 = _; omega
      simp only [hmin] at h
      have hz : (takeBits b 8 e.need.toNat e1).need = 0 := by
        apply BitVec.eq_of_toNat_eq; rw [takeBits_need]; show e.need.toNat - _ = 0; omega
      rw [if_pos hz] at h
      have : emitChunk (takeBits b 8 e.need.toNat e1).acc (takeBits b 8 e.need.toNat e1) = none := by
        have : ¬ (takeBits b 8 e.need.toNat e1).nchunk.toNat < 24 := hc
        unfold emitChunk writeChunk; rw [dif_neg this]; rfl
      rw [this] at h; cases h

end Sys2Proof.Machine
end

