-- ==== Sys2Proof/Laws/Decode.lean ====
section
/-! SUPPORT. The fields of an encoded word, and what the tables of the opcode map and the register map say of each
other. -/

namespace Sys2Proof

@[simp] theorem opField_encode (i : Instr) : opField (encode i) = i.op.code := by
  ext k hk
  simp only [opField, encode, BitVec.getElem_extractLsb', BitVec.getLsbD_append]
  have h1 : ¬ 28 + k < 16 := by omega
  have h2 : ¬ 28 + k - 16 < 12 := by omega
  simp [h1, h2, show 28 + k - 16 - 12 = k by omega, BitVec.getLsbD_eq_getElem hk]

@[simp] theorem rsvField_encode (i : Instr) : rsvField (encode i) = 0 := by
  ext k hk
  simp only [rsvField, encode, BitVec.getElem_extractLsb', BitVec.getLsbD_append]
  have h1 : ¬ 16 + k < 16 := by omega
  simp [hk]

@[simp] theorem immField_encode (i : Instr) : immField (encode i) = i.imm := by
  ext k hk
  simp only [immField, encode, BitVec.getElem_extractLsb', BitVec.getLsbD_append]
  simp [hk]

@[simp] theorem Op.ofCode_code (op : Op) : Op.ofCode op.code = some op := by cases op <;> rfl

@[simp] theorem Reg.ofNumber_number (r : Reg) : Reg.ofNumber r.number = r := by cases r <;> rfl

theorem Reg.number_ofNumber (n : BitVec 4) : (Reg.ofNumber n).number = n := by
  revert n; decide

/-- An OP value that is some mnemonic's is that mnemonic's code. -/
theorem Op.code_of_ofCode {c : BitVec 4} {op : Op} (h : Op.ofCode c = some op) : op.code = c := by
  revert op; revert c; decide

/-! ### The checks of WellFormed.lean, on fields -/

theorem opField_toNat (w : Word) : (w >>> 28).toNat = (opField w).toNat := by
  have := w.isLt
  simp only [opField, BitVec.extractLsb'_toNat, BitVec.toNat_ushiftRight, Nat.shiftRight_eq_div_pow]
  omega

theorem rsvOk_iff (w : Word) : rsvOk w = true ↔ rsvField w = 0 := by
  simp only [rsvOk, beq_iff_eq, BitVec.eq_of_getLsbD_eq_iff, rsvField, BitVec.getLsbD_extractLsb']
  constructor
  · intro h k hk
    have := h (16 + k) (by omega)
    interval_cases k <;> simpa using this
  · intro h k hk
    by_cases hk' : 16 ≤ k ∧ k < 28
    · have := h (k - 16) (by omega)
      obtain ⟨h1, h2⟩ := hk'
      interval_cases k <;> simpa using this
    · have : k < 16 ∨ 28 ≤ k := by omega
      rcases this with h1 | h1 <;> interval_cases k <;> simp

/-- The operand check on the IMM field, with the 16-bit mask. -/
theorem imm_and_eq_zero_iff (w mask : Word) (m : Half) (hm : mask = m.setWidth 32) :
    (w &&& 0x0000FFFF) &&& ~~~ mask = 0 ↔ immField w &&& ~~~ m = 0 := by
  subst hm
  simp only [BitVec.eq_of_getLsbD_eq_iff, immField]
  constructor
  · intro h k hk
    have := h k (by omega)
    interval_cases k <;> simpa using this
  · intro h k hk
    by_cases hk' : k < 16
    · have := h k hk'
      interval_cases k <;> simpa using this
    · have h16 : 16 ≤ k := by omega
      interval_cases k <;> simp

theorem opcodeOk_iff (w : Word) : opcodeOk w = true ↔ (Op.ofCode (opField w)).isSome = true := by
  simp only [opcodeOk, opField_toNat]
  generalize opField w = c
  revert c; decide

theorem imaskOf_code (op : Op) : imaskOf op.code.toNat = op.format.imask.setWidth 32 := by cases op <;> rfl

theorem immOk_iff {w : Word} {op : Op} (h : Op.ofCode (opField w) = some op) :
    immOk w = true ↔ immField w &&& ~~~ op.format.imask = 0 := by
  rw [immOk, beq_iff_eq]
  apply imm_and_eq_zero_iff
  rw [opField_toNat, ← Op.code_of_ofCode h, imaskOf_code]

/-! ### The decoder -/

/-- Everything that a decoded word has: a mnemonic's OP, RSV = 0, no stray bit of IMM, and its operand taken from IMM. -/
theorem decode_ok_cases {w : Word} {i : Instr} (h : decode w = .ok i) :
    ∃ op, Op.ofCode (opField w) = some op ∧ rsvField w = 0 ∧ immField w &&& ~~~ op.format.imask = 0 ∧
      i = op.toInstr (immField w) := by
  unfold decode at h
  split at h
  · cases h
  · rename_i op hop
    split at h
    · cases h
    · split at h
      · cases h
      · cases h
        refine ⟨op, hop, ?_, ?_, rfl⟩ <;> simp_all

/-- A word is its three fields (30_encoding.md R81). -/
theorem fields_append (w : Word) : opField w ++ rsvField w ++ immField w = w := by
  apply BitVec.eq_of_getLsbD_eq
  intro k hk
  simp only [opField, rsvField, immField, BitVec.getLsbD_append, BitVec.getLsbD_extractLsb']
  by_cases h1 : k < 16
  · simp [h1]
  · by_cases h2 : k - 16 < 12
    · simp only [h1, h2, if_true, if_false, decide_true, Bool.true_and]
      congr 1; omega
    · simp only [h1, h2, show k - 16 - 12 < 4 by omega, if_false, decide_true, Bool.true_and]
      congr 1; omega

/-- Taking an operand out of its zero extension. -/
theorem extract_setWidth {n : Nat} (h : n ≤ 16) (x : BitVec n) : (x.setWidth 16).extractLsb' 0 n = x := by
  apply BitVec.eq_of_getLsbD_eq
  intro k hk
  simp [hk, show k < 16 by omega]

/-- An IMM with no bit outside the low n is the zero extension of its low n bits. -/
theorem setWidth_extract {n : Nat} (mask imm : Half) (hm : ∀ k < 16, mask.getLsbD k = decide (k < n))
    (h : imm &&& ~~~ mask = 0) : (imm.extractLsb' 0 n).setWidth 16 = imm := by
  apply BitVec.eq_of_getLsbD_eq
  intro k hk
  have h := congrArg (fun x => BitVec.getLsbD x k) h
  simp only [BitVec.getLsbD_and, BitVec.getLsbD_not, hm k hk] at h
  simp only [BitVec.getLsbD_setWidth, BitVec.getLsbD_extractLsb', Nat.zero_add]
  by_cases hn : k < n <;> simp_all

end Sys2Proof
end

