-- ==== Sys2Proof/Laws/Exec.lean ====
section
/-! SUPPORT. Once for each meaning and for the step: everything it can do when it answers a next state. Later proofs cite
these and do not unfold the meanings. -/

namespace Sys2Proof.Machine

variable {s t : State}

/-! ### The meanings -/

theorem execNop_cases (h : execNop s = .next t) : t = respond false 0 s := by
  cases h; rfl

theorem execRst_cases (h : execRst s = .next t) : t = respond false 0 (resetElements s) := by
  cases h; rfl

theorem execRdreg_cases {r : Reg} (h : execRdreg r s = .next t) : t = respond false (readReg r s) s := by
  cases h; rfl

theorem execEclr_cases (h : execEclr s = .next t) : t = respond false 0 (s.setEnt .reset) := by
  cases h; rfl

theorem execEbyte_cases {b : Byte} (h : execEbyte b s = .next t) :
    (s.ent.fin = true ∧ t = raise .sequence s) ∨
    (s.ent.fin = false ∧ s.ent.elen = 32 ∧ t = raise .entropyOverflow s) ∨
    (s.ent.fin = false ∧ s.ent.elen ≠ 32 ∧ ∃ e done, takeByte b s.ent = some (e, done) ∧
      t = respond false (ebyteData done) (s.setEnt e)) := by
  unfold execEbyte at h
  cases hf : s.ent.fin
  · rw [if_neg (by simp [chunkerOpen, hf])] at h
    by_cases he : s.ent.elen = 32
    · rw [if_pos he] at h
      cases h
      exact .inr (.inl ⟨rfl, he, rfl⟩)
    · rw [if_neg he] at h
      split at h
      · cases h
      · rename_i e done heq
        cases h
        exact .inr (.inr ⟨rfl, he, e, done, heq, rfl⟩)
  · rw [if_pos (by simp [chunkerOpen, hf])] at h
    cases h
    exact .inl ⟨rfl, rfl⟩

theorem execEfin_cases (h : execEfin s = .next t) :
    (s.ent.fin = true ∧ t = raise .sequence s) ∨
    (s.ent.fin = false ∧ ∃ e p, flushChunk s.ent = some (e, p) ∧
      t = respond false (efinData p e.nchunk e.left) (s.setEnt e)) := by
  unfold execEfin at h
  cases hf : s.ent.fin
  · rw [if_neg (by simp [chunkerOpen, hf])] at h
    split at h
    · cases h
    · rename_i e p heq
      cases h
      exact .inr ⟨rfl, e, p, heq, rfl⟩
  · rw [if_pos (by simp [chunkerOpen, hf])] at h
    cases h
    exact .inl ⟨rfl, rfl⟩

theorem flushChunk_cases {e e' : EntropyPath} {p : Bool} (h : flushChunk e = some (e', p)) :
    (e.need = 11 ∧ p = false ∧ e' = { e with left := 0, acc := 0, need := 11, fin := true }) ∨
    (e.need ≠ 11 ∧ p = true ∧ ∃ hc : e.nchunk.toNat < 24, e' =
      { e with
        chunk := e.chunk.set e.nchunk.toNat (some (BitVec.ofNat 11 (e.acc.toNat <<< e.need.toNat))) hc
        nchunk := e.nchunk + 1, left := e.need, acc := 0, need := 11, fin := true }) := by
  unfold flushChunk at h
  by_cases hn : e.need = 11
  · rw [if_pos hn] at h
    cases h
    exact .inl ⟨hn, rfl, rfl⟩
  · rw [if_neg hn] at h
    split at h
    · cases h
    · rename_i e1 heq
      obtain ⟨hc, rfl⟩ := emitChunk_cases heq
      cases h
      exact .inr ⟨hn, rfl, hc, rfl⟩

theorem execCksum_cases (h : execCksum s = .next t) :
    ((s.ent.fin = false ∨ s.ent.csv = true) ∧ t = raise .sequence s) ∨
    (s.ent.fin = true ∧ s.ent.csv = false ∧ validEntropyLen s.ent.elen.toNat = false ∧
      t = raise .badEntropyLen s) ∨
    (s.ent.fin = true ∧ s.ent.csv = false ∧ validEntropyLen s.ent.elen.toNat = true ∧
      ∃ m, message s.ent = some m ∧
        t = respond false
          (cksumData (recordDigest (hashDigest s.hashUnit m) s.ent).csbits
            (recordDigest (hashDigest s.hashUnit m) s.ent).cs)
          (s.setEnt (recordDigest (hashDigest s.hashUnit m) s.ent))) := by
  unfold execCksum at h
  by_cases hd : checksumDue s.ent
  · rw [if_neg (by simp [hd])] at h
    obtain ⟨hf, hc⟩ : s.ent.fin = true ∧ s.ent.csv = false := by simpa [checksumDue] using hd
    cases hv : validEntropyLen s.ent.elen.toNat
    · rw [if_pos (by simp [hv])] at h
      cases h
      exact .inr (.inl ⟨hf, hc, rfl, rfl⟩)
    · rw [if_neg (by simp [hv])] at h
      split at h
      · cases h
      · rename_i m heq
        cases h
        exact .inr (.inr ⟨hf, hc, rfl, m, heq, rfl⟩)
  · rw [if_pos (by simp [hd])] at h
    cases h
    refine .inl ⟨?_, rfl⟩
    cases hf : s.ent.fin <;> cases hc : s.ent.csv <;> simp_all [checksumDue]

theorem mergeChecksum_cases {e e' : EntropyPath} {v : Chunk} (h : mergeChecksum e = some (e', v)) :
    e.nchunk ≠ 0 ∧ ∃ (hc : e.nchunk.toNat - 1 < 24) (u : Chunk), readChunk e (e.nchunk.toNat - 1) = some u ∧
      v = u ||| e.cs.setWidth 11 ∧
      e' = { e with chunk := e.chunk.set (e.nchunk.toNat - 1) (some v) hc, mrg := true } := by
  unfold mergeChecksum at h
  by_cases hz : e.nchunk = 0
  · rw [if_pos hz] at h; cases h
  · rw [if_neg hz] at h
    split at h
    · cases h
    · rename_i u hu
      have hc : e.nchunk.toNat - 1 < 24 := by
        by_contra hc
        simp [readChunk, Vector.getElem?_eq_none (Nat.le_of_not_lt hc)] at hu
      simp only [writeChunk_of_lt hc, Option.map_some] at h
      cases h
      exact ⟨hz, hc, u, hu, rfl, rfl⟩

theorem execMerge_cases (h : execMerge s = .next t) :
    ((s.ent.csv = false ∨ s.ent.mrg = true) ∧ t = raise .sequence s) ∨
    (s.ent.csv = true ∧ s.ent.mrg = false ∧ s.ent.left ≠ s.ent.csbits ∧ t = raise .checksumMismatch s) ∨
    (s.ent.csv = true ∧ s.ent.mrg = false ∧ s.ent.left = s.ent.csbits ∧
      ∃ e v, mergeChecksum s.ent = some (e, v) ∧ t = respond false (v.setWidth 16) (s.setEnt e)) := by
  unfold execMerge at h
  by_cases hd : mergeDue s.ent
  · rw [if_neg (by simp [hd])] at h
    obtain ⟨hf, hc⟩ : s.ent.csv = true ∧ s.ent.mrg = false := by simpa [mergeDue] using hd
    by_cases hl : s.ent.left = s.ent.csbits
    · rw [if_neg (by simp [hl])] at h
      split at h
      · cases h
      · rename_i e v heq
        cases h
        exact .inr (.inr ⟨hf, hc, hl, e, v, heq, rfl⟩)
    · rw [if_pos hl] at h
      cases h
      exact .inr (.inl ⟨hf, hc, hl, rfl⟩)
  · rw [if_pos (by simp [hd])] at h
    cases h
    refine .inl ⟨?_, rfl⟩
    cases hf : s.ent.csv <;> cases hc : s.ent.mrg <;> simp_all [mergeDue]

theorem execRdchk_cases {i : BitVec 5} (h : execRdchk i s = .next t) :
    ((s.ent.nchunk.toNat ≤ i.toNat ∨ readChunk s.ent i.toNat = none) ∧ t = raise .badIndex s) ∨
    (i.toNat < s.ent.nchunk.toNat ∧ ∃ v, readChunk s.ent i.toNat = some v ∧
      t = respond false (v.setWidth 16) s) := by
  unfold execRdchk at h
  by_cases hi : s.ent.nchunk.toNat ≤ i.toNat
  · rw [if_pos hi] at h
    cases h
    exact .inl ⟨.inl hi, rfl⟩
  · rw [if_neg hi] at h
    split at h
    · rename_i hn
      cases h
      exact .inl ⟨.inr hn, rfl⟩
    · rename_i v hv
      cases h
      exact .inr ⟨Nat.lt_of_not_le hi, v, hv, rfl⟩

theorem execSetwl_cases {len : Half} (h : execSetwl len s = .next t) :
    (legalLength len = false ∧ t = raise .badWlen s) ∨
    (legalLength len = true ∧
      t = respond false ((BitVec.ofNat 4 (diceCount len)).setWidth 16)
        (s.setDice { wlen := len, wlv := true, ndice := BitVec.ofNat 4 (diceCount len), dacc := 0, dcnt := 0, didx := 0,
                     dv := false })) := by
  unfold execSetwl at h
  cases hl : legalLength len
  · rw [if_neg (by simp [hl])] at h
    cases h
    exact .inl ⟨rfl, rfl⟩
  · rw [if_pos hl] at h
    cases h
    exact .inr ⟨rfl, rfl⟩

theorem execDchar_cases {c : Byte} (h : execDchar c s = .next t) :
    (s.dice.wlv = false ∧ t = raise .sequence s) ∨
    (s.dice.wlv = true ∧ faceDigit c = none ∧ t = respond false 0 s) ∨
    (s.dice.wlv = true ∧ ∃ d, faceDigit c = some d ∧
      ((s.dice.dcnt.toNat + 1 = s.dice.ndice.toNat ∧ s.dice.wlen ≠ 0 ∧
          t = respond false 3 (s.setDice (completeWord (s.dice.dacc.toNat * 6 + d) s.dice))) ∨
       (s.dice.dcnt.toNat + 1 ≠ s.dice.ndice.toNat ∧
          t = respond false 1
            (s.setDice (extendWord (s.dice.dacc.toNat * 6 + d) (s.dice.dcnt.toNat + 1) s.dice))))) := by
  unfold execDchar at h
  cases hw : s.dice.wlv
  · rw [if_pos (by simp [hw])] at h
    cases h
    exact .inl ⟨rfl, rfl⟩
  · rw [if_neg (by simp [hw])] at h
    split at h
    · rename_i hn
      cases h
      exact .inr (.inl ⟨rfl, hn, rfl⟩)
    · rename_i d hd
      refine .inr (.inr ⟨rfl, d, hd, ?_⟩)
      by_cases hc : s.dice.dcnt.toNat + 1 = s.dice.ndice.toNat
      · simp only [if_pos hc] at h
        by_cases hz : s.dice.wlen = 0
        · rw [if_pos hz] at h; cases h
        · rw [if_neg hz] at h
          cases h
          exact .inl ⟨hc, hz, rfl⟩
      · simp only [if_neg hc] at h
        cases h
        exact .inr ⟨hc, rfl⟩

theorem execDclr_cases (h : execDclr s = .next t) : t = respond false 0 (s.setDice (clearWord s.dice)) := by
  cases h; rfl

/-! ### What no command writes -/

/-- A meaning that answers a next state has entered a fault, reset the block, or responded with new elements of one
path; the ports' other fields and the fault elements stay. -/
theorem exec_shape {i : Instr} (h : exec i s = .next t) :
    (∃ c, t = raise c s) ∨ (i = .rst ∧ t = respond false 0 (resetElements s)) ∨
    (∃ e d data, t = respond false data ((s.setEnt e).setDice d)) := by
  cases i with
  | nop => exact .inr (.inr ⟨s.ent, s.dice, _, execNop_cases h⟩)
  | rst => exact .inr (.inl ⟨rfl, execRst_cases h⟩)
  | eclr => exact .inr (.inr ⟨.reset, s.dice, _, execEclr_cases h⟩)
  | ebyte b =>
    rcases execEbyte_cases h with ⟨-, h⟩ | ⟨-, -, h⟩ | ⟨-, -, e, d, -, h⟩
    · exact .inl ⟨_, h⟩
    · exact .inl ⟨_, h⟩
    · exact .inr (.inr ⟨e, s.dice, _, h⟩)
  | efin =>
    rcases execEfin_cases h with ⟨-, h⟩ | ⟨-, e, p, -, h⟩
    · exact .inl ⟨_, h⟩
    · exact .inr (.inr ⟨e, s.dice, _, h⟩)
  | cksum =>
    rcases execCksum_cases h with ⟨-, h⟩ | ⟨-, -, -, h⟩ | ⟨-, -, -, m, -, h⟩
    · exact .inl ⟨_, h⟩
    · exact .inl ⟨_, h⟩
    · exact .inr (.inr ⟨_, s.dice, _, h⟩)
  | merge =>
    rcases execMerge_cases h with ⟨-, h⟩ | ⟨-, -, -, h⟩ | ⟨-, -, -, e, v, -, h⟩
    · exact .inl ⟨_, h⟩
    · exact .inl ⟨_, h⟩
    · exact .inr (.inr ⟨e, s.dice, _, h⟩)
  | rdchk i =>
    rcases execRdchk_cases h with ⟨-, h⟩ | ⟨-, v, -, h⟩
    · exact .inl ⟨_, h⟩
    · exact .inr (.inr ⟨s.ent, s.dice, _, h⟩)
  | setwl len =>
    rcases execSetwl_cases h with ⟨-, h⟩ | ⟨-, h⟩
    · exact .inl ⟨_, h⟩
    · exact .inr (.inr ⟨s.ent, _, _, h⟩)
  | dchar c =>
    rcases execDchar_cases h with ⟨-, h⟩ | ⟨-, -, h⟩ | ⟨-, d, -, ⟨-, -, h⟩ | ⟨-, h⟩⟩
    · exact .inl ⟨_, h⟩
    · exact .inr (.inr ⟨s.ent, s.dice, _, h⟩)
    · exact .inr (.inr ⟨s.ent, _, _, h⟩)
    · exact .inr (.inr ⟨s.ent, _, _, h⟩)
  | dclr => exact .inr (.inr ⟨s.ent, _, _, execDclr_cases h⟩)
  | rdreg r => exact .inr (.inr ⟨s.ent, s.dice, _, execRdreg_cases h⟩)

/-! ### The step -/

/-- Everything that running an accepted word can do (30_encoding.md R87). -/
theorem runWord_cases {w : Word} (h : runWord w s = .next t) :
    (∃ i, decode w = .ok i ∧ (s.flt.fault = false ∨ runsInFaultState i = true) ∧ exec i s = .next t) ∨
    (s.flt.fault = false ∧ (∃ e, decode w = .error e) ∧ t = raise .illegalCmd s) ∨
    (s.flt.fault = true ∧ (∀ i, decode w = .ok i → runsInFaultState i = false) ∧ t = refuse s) := by
  cases hd : decode w with
  | ok i =>
    by_cases hr : s.flt.fault = false ∨ runsInFaultState i = true
    · rw [runWord, admission_execute hd hr] at h
      exact .inl ⟨i, rfl, hr, h⟩
    · simp only [not_or, Bool.not_eq_false, Bool.not_eq_true] at hr
      have hall : ∀ j, decode w = .ok j → runsInFaultState j = false := by
        intro j hj; rw [hd] at hj; cases hj; exact hr.2
      rw [runWord, admission_refuse hr.1 hall] at h
      cases h
      refine .inr (.inr ⟨hr.1, ?_, rfl⟩)
      intro j hj; cases hj; exact hr.2
  | error e =>
    cases hf : s.flt.fault
    · rw [runWord, admission_illegal hd hf] at h
      cases h
      exact .inr (.inl ⟨rfl, ⟨e, rfl⟩, rfl⟩)
    · rw [runWord, admission_refuse hf (by simp [hd])] at h
      cases h
      exact .inr (.inr ⟨rfl, by simp, rfl⟩)

/-- Everything that a step can do. -/
theorem step_cases (h : step s = .next t) :
    (∃ a rest, s.inputs = .reset a :: rest ∧ t = hardwareReset (s.setInputs rest)) ∨
    (∃ w rest, s.inputs = .command w :: rest ∧ runWord w (accept rest s) = .next t) := by
  unfold step at h
  split at h
  · cases h
  · rename_i a rest hi
    cases h
    exact .inl ⟨a, rest, hi, rfl⟩
  · rename_i w rest hi
    exact .inr ⟨w, rest, hi, h⟩

theorem step_command {w : Word} {rest : List HostEvent} (hi : s.inputs = .command w :: rest) :
    step s = runWord w (accept rest s) := by
  simp [step, hi]

theorem step_reset {a : Option Word} {rest : List HostEvent} (hi : s.inputs = .reset a :: rest) :
    step s = .next (hardwareReset (s.setInputs rest)) := by
  simp [step, hi]

end Sys2Proof.Machine
end

