-- ==== Sys2Proof/Laws/PerInstr.lean ====
section
/-! SUPPORT. The family WordShape: the word of a command has the command's OP, RSV = 0, and no bit of IMM outside the
command's operand field (30_encoding.md R81, R82). One lemma for each constructor. -/

namespace Sys2Proof.Laws.WordShape

/-- The fields of a command's word. -/
def Statement (i : Instr) : Prop :=
  opField (encode i) = i.op.code ∧ rsvField (encode i) = 0 ∧ immField (encode i) &&& ~~~ i.op.format.imask = 0

/-- An n-bit operand, zero-extended to IMM, sets no bit above its field. -/
theorem operand_fits {n : Nat} (x : BitVec n) (mask : Half) (h : ∀ k < 16, mask.getLsbD k = decide (k < n)) :
    x.setWidth 16 &&& ~~~ mask = 0 := by
  ext k hk
  simp only [BitVec.getElem_and, BitVec.getElem_setWidth, BitVec.getElem_not]
  rw [← BitVec.getLsbD_eq_getElem, h k hk]
  by_cases hn : k < n
  · simp [hn]
  · simp [BitVec.getLsbD_of_ge x k (Nat.le_of_not_lt hn)]

theorem shape (i : Instr) (h : i.imm &&& ~~~ i.op.format.imask = 0) : Statement i :=
  ⟨opField_encode i, rsvField_encode i, by rw [immField_encode]; exact h⟩

theorem nop : Statement .nop := shape _ (by decide)
theorem rst : Statement .rst := shape _ (by decide)
theorem eclr : Statement .eclr := shape _ (by decide)
theorem ebyte (b : Byte) : Statement (.ebyte b) := shape _ (operand_fits b 0x00FF (by decide))
theorem efin : Statement .efin := shape _ (by decide)
theorem cksum : Statement .cksum := shape _ (by decide)
theorem merge : Statement .merge := shape _ (by decide)
theorem rdchk (i : BitVec 5) : Statement (.rdchk i) := shape _ (operand_fits i 0x001F (by decide))
theorem setwl (len : Half) : Statement (.setwl len) := shape _ (by simp [Instr.imm, Instr.op, Op.format, Format.imask])
theorem dchar (c : Byte) : Statement (.dchar c) := shape _ (operand_fits c 0x00FF (by decide))
theorem dclr : Statement .dclr := shape _ (by decide)
theorem rdreg (r : Reg) : Statement (.rdreg r) := shape _ (operand_fits r.number 0x000F (by decide))

end Sys2Proof.Laws.WordShape
end

