-- ==== Sys2Proof/Tests/Slice0.lean ====
section
/-! SUPPORT. The model's own tests. Every expected value is the spec's: 30_encoding.md R82, R85 and R92, the worked
examples of the command rules, and 95_test_vectors.md. After them, the witnesses: for each statement with hypotheses,
states and operands that meet them. -/

namespace Sys2Proof.Tests

open Sys2Proof.Machine Sys2Proof.Safety

/-! ### Ill-formed words, one for each check (30_encoding.md R84, 95_test_vectors.md 2.6) -/

theorem test_reserved_opcode_refused :
    opcodeOk 0xC0000000 = false ∧ rsvOk 0xC0000000 = true ∧ wellFormed 0xC0000000 = false ∧
      opcodeOk 0xF0000000 = false := by decide
theorem test_reserved_field_refused :
    rsvOk 0x00010000 = false ∧ opcodeOk 0x00010000 = true ∧ immOk 0x00010000 = true ∧
      wellFormed 0x00010000 = false := by decide
theorem test_stray_immediate_refused :
    immOk 0x30000100 = false ∧ opcodeOk 0x30000100 = true ∧ rsvOk 0x30000100 = true ∧ wellFormed 0x30000100 = false ∧
      wellFormed 0x700000E0 = false ∧ wellFormed 0xB0000010 = false ∧ wellFormed 0x00000001 = false ∧
      wellFormed 0x10000001 = false ∧ wellFormed 0x90000100 = false := by decide
theorem test_illegal_length_is_well_formed : wellFormed 0x80000000 = true := by decide

/-! ### Decoding: one word for each command, written bit by bit from 30_encoding.md R81, R82 and R85 -/

theorem test_decode_nop : decode 0b00000000000000000000000000000000 = .ok .nop := rfl
theorem test_decode_rst : decode 0b00010000000000000000000000000000 = .ok .rst := rfl
theorem test_decode_eclr : decode 0b00100000000000000000000000000000 = .ok .eclr := rfl
theorem test_decode_ebyte : decode 0b00110000000000000000000001111111 = .ok (.ebyte 0x7F) := rfl
theorem test_decode_efin : decode 0b01000000000000000000000000000000 = .ok .efin := rfl
theorem test_decode_cksum : decode 0b01010000000000000000000000000000 = .ok .cksum := rfl
theorem test_decode_merge : decode 0b01100000000000000000000000000000 = .ok .merge := rfl
theorem test_decode_rdchk : decode 0b01110000000000000000000000001011 = .ok (.rdchk 11) := rfl
theorem test_decode_setwl : decode 0b10000000000000000001111001100000 = .ok (.setwl 7776) := rfl
theorem test_decode_dchar : decode 0b10010000000000000000000000110110 = .ok (.dchar 0x36) := rfl
theorem test_decode_dclr : decode 0b10100000000000000000000000000000 = .ok .dclr := rfl
theorem test_decode_rdreg : decode 0b10110000000000000000000000001111 = .ok (.rdreg .didx) := rfl
theorem test_decode_rejects :
    decode 0xC0000000 = .error .reservedOpcode ∧ decode 0x00010000 = .error .reservedBits ∧
      decode 0x30000100 = .error .strayImmediate := ⟨rfl, rfl, rfl⟩
theorem test_encode_words :
    encode (.ebyte 0x7F) = 0x3000007F ∧ encode (.setwl 1296) = 0x80000510 ∧ encode (.rdreg .didx) = 0xB000000F := by
  decide
theorem test_table_word : decodeTableWord 32 0x7000000B = some (.rdchk 11) := rfl

/-! ### Small states -/

/-- What a next state satisfies. -/
def after (r : Result) (p : State → Bool) : Bool :=
  match r with
  | .next t => p t
  | .fault _ => false
  | .refused _ => false

theorem next_of_after {r : Result} {p : State → Bool} (h : after r p = true) : ∃ t, r = .next t ∧ p t = true := by
  cases r with
  | next t => exact ⟨t, rfl, h⟩
  | fault _ => cases h
  | refused _ => cases h

/-- An entropy path with these bytes and chunks, the chunker open. -/
def open_ (bs : List Byte) (cs : List Chunk) (acc : Chunk) (need : BitVec 4) : EntropyPath :=
  { EntropyPath.reset with
    ebuf := Vector.ofFn fun i => bs[i.val]?
    elen := BitVec.ofNat 6 bs.length
    acc := acc
    need := need
    chunk := Vector.ofFn fun i => cs[i.val]?
    nchunk := BitVec.ofNat 5 cs.length }

/-- The same after EFIN. -/
def done (bs : List Byte) (cs : List Chunk) (left : BitVec 4) : EntropyPath :=
  { open_ bs cs 0 11 with left := left, fin := true }

/-- The reset state with this entropy path. -/
def entState (e : EntropyPath) : State := State.reset.setEnt e

/-- The reset state with this wordlist length, N, and current word. -/
def diceState (len : Half) (n : BitVec 4) (dacc : BitVec 40) (dcnt : BitVec 4) : State :=
  State.reset.setDice
    { DicePath.reset with wlen := len, wlv := true, ndice := n, dacc := dacc, dcnt := dcnt }

/-- The reset state, faulted with a cause. -/
def faulted (c : Cause) : State := State.reset.setFlt ⟨true, c.code⟩

/-- After the byte 0x01 (95_test_vectors.md 2.2.2). -/
def one : EntropyPath := open_ [0x01] [] 1 3
/-- After 31 bytes of 0x00: NCHUNK = 22, NEED = 5. -/
def full31 : EntropyPath := open_ (List.replicate 31 0) (List.replicate 22 0) 0 5
/-- After 16 bytes of 0x00 and EFIN (95_test_vectors.md P1). -/
def done16 : EntropyPath := done (List.replicate 16 0) (List.replicate 12 0) 4
/-- After CKSUM on it, with SHA-256. -/
def summed16 : EntropyPath := { done16 with csbits := 4, dmsb := 0x37, cs := 3, csv := true }
/-- After MERGE on it. -/
def merged16 : EntropyPath :=
  { done (List.replicate 16 0) (List.replicate 11 0 ++ [3]) 4 with
    csbits := 4, dmsb := 0x37, cs := 3, csv := true, mrg := true }
/-- After 32 bytes of 0x00 and EFIN: NCHUNK = 24. -/
def done32 : EntropyPath := done (List.replicate 32 0) (List.replicate 24 0) 8

/-! ### Commands -/

/-- 44_control.md R150: NOP in the fault state. -/
theorem test_nop_in_fault_state :
    after (step ((faulted .badEntropyLen).setInputs [.command 0x00000000])) (fun t =>
      t.rsp == some ⟨false, 0⟩ && t.flt == ⟨true, 4⟩) = true := by decide
/-- 44_control.md R151, its example. -/
theorem test_rst_clears_fault :
    after (step ((faulted .badEntropyLen).setInputs [.command 0x10000000])) (fun t =>
      t.rsp == some ⟨false, 0⟩ && t.flt == ⟨false, 0⟩ && t.ent.need == 11 && t.dice.wlv == false) = true := by decide
/-- 44_control.md R152, its example: FAULT = 1, FCAUSE = 4, FIN = 1 reads 0x0421. -/
theorem test_rdreg_status :
    after (exec (.rdreg .status) ((faulted .badEntropyLen).setEnt { EntropyPath.reset with fin := true })) (fun t =>
      t.rsp == some ⟨false, 0x0421⟩) = true := by decide
/-- 95_test_vectors.md 2.4.3: DACC = 6^14 - 1 in three pieces. -/
theorem test_rdreg_dacc :
    readReg .daccLo (diceState 32768 15 (6 ^ 14 - 1) 14) = 0x3FFF ∧
      readReg .daccMid (diceState 32768 15 (6 ^ 14 - 1) 14) = 0x3EDE ∧
      readReg .daccHi (diceState 32768 15 (6 ^ 14 - 1) 14) = 0x0012 := by decide
/-- 41_chunker.md R119: the dice path stays. -/
theorem test_eclr_keeps_dice :
    after (exec .eclr ((diceState 2048 11 310 5).setEnt merged16)) (fun t =>
      t.rsp == some ⟨false, 0⟩ && t.ent.need == 11 && t.ent.elen == 0 && !t.ent.mrg && t.dice.dacc == 310) = true := by
  decide
/-- 41_chunker.md R120, its example. -/
theorem test_ebyte_completes_chunk :
    after (exec (.ebyte 0x23) (entState one)) (fun t =>
      t.rsp == some ⟨false, 0x8009⟩ && readChunk t.ent 0 == some 9 && t.ent.nchunk == 1 && t.ent.acc == 3 &&
        t.ent.need == 6 && t.ent.elen == 2) = true := by decide
/-- 95_test_vectors.md 2.2.5: the 33rd byte. -/
theorem test_ebyte_overflow :
    after (exec (.ebyte 0) (entState (open_ (List.replicate 32 0x80) (List.replicate 23 0) 0 8))) (fun t =>
      t.rsp == some ⟨true, 3⟩ && t.flt == ⟨true, 3⟩ && t.ent.elen == 32) = true := by decide
/-- 41_chunker.md R121, its example: 16 bytes of 0xFF. -/
theorem test_efin_partial :
    after (exec .efin (entState (open_ (List.replicate 16 0xFF) (List.replicate 11 2047) 127 4))) (fun t =>
      t.rsp == some ⟨false, 0x80C4⟩ && readChunk t.ent 11 == some 2032 && t.ent.nchunk == 12 && t.ent.left == 4 &&
        t.ent.fin && t.ent.acc == 0 && t.ent.need == 11) = true := by decide
/-- 95_test_vectors.md 2.2.3: EFIN with no bytes. -/
theorem test_efin_empty :
    after (exec .efin State.reset) (fun t =>
      t.rsp == some ⟨false, 0⟩ && t.ent.left == 0 && t.ent.nchunk == 0 && t.ent.fin) = true := by decide
/-- 40_checksum.md R110, its example, with SHA-256. -/
theorem test_cksum_zero_entropy :
    after (exec .cksum (entState done16)) (fun t =>
      t.rsp == some ⟨false, 0x0403⟩ && t.ent.dmsb == 0x37 && t.ent.csbits == 4 && t.ent.cs == 3 && t.ent.csv) =
      true := by decide +kernel
/-- 95_test_vectors.md 2.1.2: ELEN = 15. -/
theorem test_cksum_bad_length :
    after (exec .cksum (entState (done (List.replicate 15 0xAA) (List.replicate 11 0) 1))) (fun t =>
      t.rsp == some ⟨true, 4⟩ && t.flt == ⟨true, 4⟩ && !t.ent.csv) = true := by decide
/-- 42_entropy_mapper.md R130, its example. -/
theorem test_merge_zero_entropy :
    after (exec .merge (entState summed16)) (fun t =>
      t.rsp == some ⟨false, 3⟩ && readChunk t.ent 11 == some 3 && readChunk t.ent 10 == some 0 && t.ent.mrg) =
      true := by decide
/-- 42_entropy_mapper.md R131, its example. -/
theorem test_rdchk :
    after (exec (.rdchk 11) (entState merged16)) (fun t => t.rsp == some ⟨false, 3⟩) = true ∧
      after (exec (.rdchk 12) (entState merged16)) (fun t => t.rsp == some ⟨true, 5⟩ && t.flt == ⟨true, 5⟩) =
        true := by decide
/-- 95_test_vectors.md 2.4.1. -/
theorem test_setwl :
    after (exec (.setwl 62208) State.reset) (fun t => t.rsp == some ⟨false, 8⟩ && t.dice.wlen == 62208) = true ∧
      after (exec (.setwl 65535) State.reset) (fun t => t.rsp == some ⟨true, 6⟩ && t.dice.wlen == 0) = true := by
  decide
/-- 43_dice.md R140, its example: the eleventh '6'. -/
theorem test_dchar_completes_word :
    after (exec (.dchar 0x36) (diceState 2048 11 (6 ^ 10 - 1) 10)) (fun t =>
      t.rsp == some ⟨false, 3⟩ && t.dice.didx == 2047 && t.dice.dv && t.dice.dcnt == 0 && t.dice.dacc == 0) =
      true := by decide
/-- 95_test_vectors.md 2.4.5: an ignored character does not clear DV. -/
theorem test_dchar_ignores_noise :
    after (exec (.dchar 0x41) ((diceState 6 1 0 0).setDice
      { wlen := 6, wlv := true, ndice := 1, dacc := 0, dcnt := 0, didx := 2, dv := true })) (fun t =>
      t.rsp == some ⟨false, 0⟩ && t.dice.dv && t.dice.didx == 2) = true := by decide
/-- 43_dice.md R143, its example. -/
theorem test_dclr :
    after (exec .dclr (diceState 1296 4 51 3)) (fun t =>
      t.rsp == some ⟨false, 0⟩ && t.dice.dcnt == 0 && t.dice.dacc == 0 && t.dice.wlen == 1296) = true := by decide
/-- 95_test_vectors.md 2.5.3: a reserved word, and a refused command in the fault state. -/
theorem test_illegal_and_refused :
    after (step (State.reset.setInputs [.command 0xC0000000])) (fun t =>
      t.rsp == some ⟨true, 1⟩ && t.flt == ⟨true, 1⟩) = true ∧
    after (step ((faulted .illegalCmd).setInputs [.command 0x10000001])) (fun t =>
      t.rsp == some ⟨true, 1⟩ && t.flt == ⟨true, 1⟩) = true := by decide
/-- 70_reset_and_hazards.md R171: the hardware reset, and an abandoned command without a response. -/
theorem test_hardware_reset :
    after (step ((faulted .badIndex).setInputs [.reset (some 0x50000000)])) (fun t =>
      t == State.reset) = true := by decide
/-- 30_encoding.md R90, R91. -/
theorem test_assembler :
    Asm.assembleText "dstr \"1\\n\" ; comment".toList = .ok [.dchar 0x31, .dchar 0x0A] ∧
      Asm.assembleText "EBYTES 1, 0x02, 'a'".toList = .ok [.ebyte 1, .ebyte 2, .ebyte 0x61] ∧
      Asm.assembleText "RDREG dacc_hi".toList = .ok [.rdreg .daccHi] ∧
      Asm.assembleText "SETWL 65536".toList = .error .outOfRange := ⟨rfl, rfl, rfl, rfl⟩

/-! ### Witnesses: states and operands that meet the hypotheses of the statements, at the ends of their ranges

`witness_<Statement>` meets the hypotheses of `Obligations.<Statement>`. -/

theorem entropyInv_one : EntropyInv one := by constructor <;> decide
theorem entropyInv_full31 : EntropyInv full31 := by constructor <;> decide
theorem entropyInv_done16 : EntropyInv done16 := by constructor <;> decide
theorem entropyInv_summed16 : EntropyInv summed16 := by constructor <;> decide
theorem entropyInv_merged16 : EntropyInv merged16 := by constructor <;> decide
theorem entropyInv_done32 : EntropyInv done32 := by constructor <;> decide

theorem diceInv_reset : DiceInv DicePath.reset := ⟨(fun h => nomatch h), by decide, by decide⟩
theorem faultInv_reset : FaultInv FaultUnit.reset := ⟨by decide, by decide⟩
/-- L = 32768, the length with the largest N, one digit before the word is complete. -/
theorem diceInv_last_digit : DiceInv (diceState 32768 15 (6 ^ 14 - 1) 14).dice :=
  ⟨fun _ => ⟨⟨by decide, by decide, 15, 0, by decide, by decide⟩, by decide, by decide, by decide⟩, by decide,
    by decide⟩
/-- L = 2, the shortest, before the only digit of a word. -/
theorem diceInv_one_digit : DiceInv (diceState 2 1 0 0).dice :=
  ⟨fun _ => ⟨⟨by decide, by decide, 1, 0, by decide, by decide⟩, by decide, by decide, by decide⟩, by decide,
    by decide⟩
theorem diceInv_six : DiceInv (diceState 6 1 0 0).dice :=
  ⟨fun _ => ⟨⟨by decide, by decide, 1, 1, by decide, by decide⟩, by decide, by decide, by decide⟩, by decide,
    by decide⟩
theorem diceInv_four_empty : DiceInv (diceState 4 2 0 0).dice :=
  ⟨fun _ => ⟨⟨by decide, by decide, 2, 0, by decide, by decide⟩, by decide, by decide, by decide⟩, by decide,
    by decide⟩
theorem diceInv_four : DiceInv (diceState 4 2 5 1).dice :=
  ⟨fun _ => ⟨⟨by decide, by decide, 2, 0, by decide, by decide⟩, by decide, by decide, by decide⟩, by decide,
    by decide⟩

theorem inv_of_entropy {e : EntropyPath} (h : EntropyInv e) : Inv (entState e) :=
  ⟨h, diceInv_reset, faultInv_reset⟩

/-- Each word is well-formed or fails one check; the two ill-formed rows meet a fault and no fault. -/
theorem witness_WellFormedWordsSpellCommands :
    wellFormed 0x8000FFFF = true ∧ wellFormed 0x8001FFFF = false ∧
      (State.reset.setInputs [.command 0x8001FFFF]).flt.fault = false ∧
      ((faulted .badWlen).setInputs [.command 0x8001FFFF]).flt.fault = true := by decide

theorem witness_EncodeDecodeRoundTrip : decode 0x7000001F = .ok (.rdchk 31) := rfl

theorem witness_OpcodeMapSelectsCommand :
    wellFormed 0x300000FF = true ∧ (.ebyte, 0x30000000, 0xFFFFFF00) ∈ opcodeMap ∧
      (0x300000FF : Word) &&& 0xFFFFFF00 = 0x30000000 ∧ (0xC0000000 : Word) &&& 0xC0000000 = 0xC0000000 := by decide

theorem witness_DecoderRejectsByName :
    (opcodeOk 0xBFFFFFFF = true ∧ rsvOk 0xBFFFFFFF = false) ∧ (rsvOk 0xB000FFFF = true ∧ immOk 0xB000FFFF = false) ∧
      opcodeOk 0xFFFFFFFF = false := by decide

/-- A character literal, the first and the last number that are bytes, and the first number that is none. -/
theorem witness_PseudoCommandsExpand :
    ([0x31, 0, 255] : List Byte) ≠ [] ∧
      List.Forall₂ (fun (b : Byte) (a : Asm.Operand) => a = .chr b ∨ a = .num b.toNat) [0x31, 0, 255]
        [.chr 0x31, .num 0, .num 255] ∧
      (∀ a ∈ [Asm.Operand.num 255], ∃ b : Byte, a = .chr b ∨ a = .num b.toNat) ∧ 256 ≤ 256 :=
  ⟨by decide, .cons (.inl rfl) (.cons (.inr rfl) (.cons (.inr rfl) .nil)), by simpa using ⟨255, rfl⟩, by decide⟩

/-- The last value that fits each field, and the first that does not. -/
theorem witness_AssemblerNeverTruncates :
    Asm.assembleCommand .ebyte [.num 255] = .ok (.ebyte 255) ∧ Asm.assembleCommand .rdchk [.num 31] = .ok (.rdchk 31) ∧
      Asm.assembleCommand .rdreg [.num 15] = .ok (.rdreg .didx) ∧
      Asm.assembleCommand .setwl [.num 65535] = .ok (.setwl 65535) ∧ 256 ≤ 256 ∧
      Asm.assembleCommand .rdreg [.num 16] = .error .outOfRange := ⟨rfl, rfl, rfl, rfl, by decide, rfl⟩

theorem witness_StepRunsDecodedCommand :
    (State.reset.setInputs [.command 0x30000001]).inputs = .command 0x30000001 :: [] ∧
      decode 0x30000001 = .ok (.ebyte 1) ∧ (State.reset.setInputs [.command 0x30000001]).flt.fault = false :=
  ⟨rfl, rfl, rfl⟩

/-- The four clauses: a command that runs in the fault state, one that does not, an ill-formed and a well-formed word
with no fault. -/
theorem witness_StepFollowsDispatchRule :
    ((faulted .sequence).flt.fault = true ∧ wellFormed 0xB0000000 = true ∧ decode 0xB0000000 = .ok (.rdreg .status)) ∧
      (∀ i, decode 0x50000000 = .ok i → ¬ (i = .nop ∨ i = .rst ∨ ∃ r, i = .rdreg r)) ∧
      (State.reset.flt.fault = false ∧ wellFormed 0x00000001 = false ∧ wellFormed 0x50000000 = true) :=
  ⟨⟨rfl, by decide, rfl⟩, (by rintro i h (rfl | rfl | ⟨r, rfl⟩) <;> cases h), by decide⟩

theorem witness_StepTakesOneEventInOrder :
    State.reset.inputs = [] ∧
      ∃ t, step (State.reset.setInputs [.command 0, .reset none]) = .next t ∧ (t.inputs == [.reset none]) = true :=
  ⟨rfl, next_of_after (by decide)⟩

/-- A command in a state that meets the invariants, on each path. -/
theorem witness_EveryEventHasItsStep :
    Inv ((entState full31).setInputs [.command 0x300000FF]) ∧
      ((entState full31).setInputs [.command 0x300000FF]).inputs ≠ [] ∧
      Inv ((diceState 32768 15 (6 ^ 14 - 1) 14).setInputs [.command 0x90000036]) :=
  ⟨⟨entropyInv_full31, diceInv_reset, by constructor <;> decide⟩, by decide,
    ⟨by constructor <;> decide, diceInv_last_digit, by constructor <;> decide⟩⟩

theorem witness_OneResponsePerCommand :
    (∃ t, step (State.reset.setInputs [.command 0x50000000]) = .next t ∧ (t.rsp == some ⟨true, 2⟩) = true) ∧
      ∃ t, step ((faulted .sequence).setInputs [.command 0x10000000]) = .next t ∧ (t.flt == ⟨false, 0⟩) = true :=
  ⟨next_of_after (by decide), next_of_after (by decide)⟩

theorem witness_FaultEntryIsPrecise :
    State.reset.flt.fault = false ∧ ∃ t, exec .cksum State.reset = .next t ∧ t.flt.fault = true :=
  ⟨rfl, next_of_after (p := fun t => t.flt.fault) (by decide)⟩

/-- One state for each check, in the order of the list. -/
theorem witness_FirstFaultIsReported :
    (entState done16).ent.fin = true ∧
      ((entState (open_ (List.replicate 32 0) (List.replicate 23 0) 0 3)).ent.fin = false ∧
        (entState (open_ (List.replicate 32 0) (List.replicate 23 0) 0 3)).ent.elen = 32) ∧
      ((entState one).ent.fin = false ∧ (entState summed16).ent.csv = true) ∧
      ((entState (done (List.replicate 15 0) (List.replicate 11 0) 1)).ent.elen.toNat ∉ [16, 20, 24, 28, 32]) ∧
      ((entState merged16).ent.mrg = true ∧ (entState { summed16 with csbits := 5 }).ent.left ≠ 5) ∧
      (State.reset.dice.wlv = false) ∧ (entState done32).ent.nchunk.toNat ≤ (24 : BitVec 5).toNat ∧ (¬ Legal 1) :=
  ⟨by decide, by decide, by decide, by decide, by decide, by decide, by decide, fun ⟨_, h, _⟩ => absurd h (by decide)⟩

theorem witness_FaultStateRefuses :
    ((faulted .badIndex).setInputs [.command 0x20000000]).flt.fault = true ∧
      (∀ i, decode 0x20000000 = .ok i → ¬ (i = .nop ∨ i = .rst ∨ ∃ r, i = .rdreg r)) ∧
      decode 0xB000000F = .ok (.rdreg .didx) :=
  ⟨rfl, (by rintro i h (rfl | rfl | ⟨r, rfl⟩) <;> cases h), rfl⟩

theorem witness_OnlyResetLeavesFaultState :
    (faulted .badIndex).flt.fault = true ∧
      (∃ t, step ((faulted .badIndex).setInputs [.command 0x10000000]) = .next t ∧
        (t.flt != (faulted .badIndex).flt) = true) ∧
      ∃ t, step ((faulted .badIndex).setInputs [.reset none]) = .next t ∧
        (t.flt != (faulted .badIndex).flt) = true :=
  ⟨rfl, next_of_after (by decide), next_of_after (by decide)⟩

theorem witness_ResetsHaveTheSameEffect :
    ((faulted .badIndex).setInputs [.reset (some 0x50000000)]).inputs = [.reset (some 0x50000000)] ∧
      ((faulted .badIndex).setInputs [.command 0x10000000]).inputs = [.command 0x10000000] := ⟨rfl, rfl⟩

/-- The word itself and its nearest neighbours of the same OP, in both fault states. -/
theorem witness_NopDoesNothing :
    (0x00000001 : Word) >>> 28 = 0 ∧ (0x0FFFFFFF : Word) >>> 28 = 0 ∧ (0x00000001 : Word) ≠ 0 ∧
      (State.reset.setInputs [.command 0x00000001]).flt.fault = false ∧
      ((faulted .sequence).setInputs [.command 0x00000001]).flt.fault = true := by decide

theorem witness_RstResets :
    (0x10000000 : Word) >>> 28 = 1 ∧ (0x1FFFFFFF : Word) >>> 28 = 1 ∧ (0x1FFFFFFF : Word) ≠ 0x10000000 ∧
      (State.reset.setInputs [.command 0x1FFFFFFF]).flt.fault = false ∧
      ((faulted .sequence).setInputs [.command 0x1FFFFFFF]).flt.fault = true := by decide

/-- NEED = 11 and 9 take the clause with no chunk, NEED = 8 and 1 the clause with one; ELEN = 31 and NCHUNK = 23 are
the last that fit. -/
theorem witness_EbyteTakesByte :
    ((open_ [] [] 0 11).elen.toNat < 32 ∧ (open_ [] [] 0 11).fin = false ∧ 8 < (open_ [] [] 0 11).need.toNat ∧
      (open_ [] [] 0 11).need.toNat ≤ 11 ∧ (open_ [] [] 0 11).acc.toNat < 2 ^ (11 - 11)) ∧
    (8 < (open_ (List.replicate 31 0) [] 3 9).need.toNat ∧ (open_ (List.replicate 31 0) [] 3 9).elen.toNat < 32 ∧
      (open_ (List.replicate 31 0) [] 3 9).acc.toNat < 2 ^ (11 - 9)) ∧
    ((open_ [0] (List.replicate 23 0) 7 8).need.toNat ≤ 8 ∧ (open_ [0] (List.replicate 23 0) 7 8).nchunk.toNat < 24 ∧
      (open_ [0] (List.replicate 23 0) 7 8).acc.toNat < 2 ^ (11 - 8)) ∧
    (1 ≤ (open_ [0] [] 1023 1).need.toNat ∧ (open_ [0] [] 1023 1).acc.toNat < 2 ^ (11 - 1)) ∧
    done16.fin = true ∧ (open_ (List.replicate 32 0) [] 0 3).elen = 32 := by decide

/-- NEED = 11 has no partial chunk; NEED = 10 and 1 have one; NCHUNK = 23 is the last that fits. -/
theorem witness_EfinFlushesChunker :
    ((open_ [] [] 0 11).fin = false ∧ (open_ [] [] 0 11).need = 11) ∧
    ((open_ [0] (List.replicate 23 0) 1 10).nchunk.toNat < 24 ∧ (open_ [0] (List.replicate 23 0) 1 10).need.toNat ≤ 10 ∧
      (open_ [0] (List.replicate 23 0) 1 10).acc.toNat < 2 ^ (11 - 10)) ∧
    ((open_ [0] [] 1023 1).need.toNat ≤ 10 ∧ (open_ [0] [] 1023 1).acc.toNat < 2 ^ (11 - 1)) ∧ done16.fin = true := by
  decide

/-- The shortest and the longest entropy, and a length that is not valid. -/
theorem witness_CksumTakesChecksum :
    (done16.fin = true ∧ done16.csv = false ∧ done16.elen.toNat ∈ [16, 20, 24, 28, 32] ∧
      (List.replicate 16 (0 : Byte)).length = done16.elen.toNat ∧
      ∀ i < done16.elen.toNat, readEbuf done16 i = (List.replicate 16 (0 : Byte))[i]?) ∧
    (done32.csv = false ∧ done32.elen.toNat ∈ [16, 20, 24, 28, 32] ∧
      ∀ i < done32.elen.toNat, readEbuf done32 i = (List.replicate 32 (0 : Byte))[i]?) ∧
    one.fin = false ∧ summed16.csv = true ∧
    (done (List.replicate 15 0) (List.replicate 11 0) 1).elen.toNat ∉ [16, 20, 24, 28, 32] := by decide

theorem witness_MergeInsertsChecksum :
    (summed16.csv = true ∧ summed16.mrg = false ∧ summed16.left = summed16.csbits ∧ summed16.nchunk.toNat = 11 + 1 ∧
      readChunk summed16 11 = some 0 ∧ (0 : Chunk).toNat % 2 ^ summed16.left.toNat = 0 ∧
      summed16.cs.toNat < 2 ^ summed16.left.toNat) ∧
    ({ summed16 with csbits := 5 }.left ≠ 5) ∧ one.csv = false ∧ merged16.mrg = true := by decide

/-- The last entry of a full chunk buffer, the index after it, and an entry that holds no value. -/
theorem witness_RdchkReadsChunk :
    ((23 : BitVec 5).toNat < done32.nchunk.toNat ∧ readChunk done32 23 = some 0) ∧
      done32.nchunk.toNat ≤ (24 : BitVec 5).toNat ∧ readChunk one 0 = none := by decide

/-- The shortest and the longest legal length, and lengths that are not legal: 1, 10 = 2 · 5, and 65535. -/
theorem witness_SetwlConfiguresLength :
    LegalWith (2 : Half).toNat 1 ∧ LegalWith (62208 : Half).toNat 8 ∧ ¬ Legal (1 : Half).toNat ∧
      ¬ Legal (10 : Half).toNat ∧ ¬ Legal (65535 : Half).toNat := by
  have five : ∀ n, 5 ∣ n → ¬ Legal n := by
    rintro _ h ⟨_, _, _, a, b, rfl, _⟩
    have p5 : Nat.Prime 5 := by norm_num
    rcases (p5.dvd_mul).mp h with h | h
    · exact absurd (p5.dvd_of_dvd_pow h) (by decide)
    · exact absurd (p5.dvd_of_dvd_pow h) (by decide)
  exact ⟨⟨by decide, by decide, 1, 0, by decide, by decide⟩, ⟨by decide, by decide, 8, 5, by decide, by decide⟩,
    fun ⟨_, h, _⟩ => absurd h (by decide), five _ (by decide), five _ (by decide)⟩

/-- The characters around the faces, and a digit that completes a word and one that does not. -/
theorem witness_DcharTakesFace :
    State.reset.dice.wlv = false ∧
    ((diceState 4 2 5 1).dice.wlv = true ∧ DiceInv (diceState 4 2 5 1).dice ∧
      (diceState 4 2 5 1).dice.dcnt.toNat + 1 = (diceState 4 2 5 1).dice.ndice.toNat) ∧
    (DiceInv (diceState 2048 11 0 0).dice ∧
      (diceState 2048 11 0 0).dice.dcnt.toNat + 1 ≠ (diceState 2048 11 0 0).dice.ndice.toNat) ∧
    ((0x30 : Byte).toNat < 0x31 ∧ 0x36 < (0x37 : Byte).toNat) ∧
    (0x31 ≤ (0x31 : Byte).toNat ∧ (0x36 : Byte).toNat ≤ 0x36) :=
  ⟨rfl, ⟨rfl, diceInv_four, rfl⟩,
    ⟨⟨fun _ => ⟨⟨by decide, by decide, 11, 0, by decide, by decide⟩, by decide, by decide, by decide⟩, by decide,
      by decide⟩, by decide⟩, by decide, by decide⟩

/-- A read that answers and one that faults. -/
theorem witness_ReadCommandsFrame :
    (∃ t, exec (.rdchk 11) (entState merged16) = .next t ∧ (t.flt == (entState merged16).flt) = true) ∧
      ∃ t, exec (.rdchk 12) (entState merged16) = .next t ∧ (t.flt != (entState merged16).flt) = true :=
  ⟨next_of_after (by decide), next_of_after (by decide)⟩

/-- EBYTE with and without a chunk, EFIN with and without one, CKSUM and MERGE, each with a next state and no fault. -/
theorem witness_EntropyCommandsFrame :
    (∃ t, exec (.ebyte 1) State.reset = .next t ∧ (t.ent.nchunk == 0) = true) ∧
      (∃ t, exec (.ebyte 0x23) (entState one) = .next t ∧ (t.ent.nchunk == 1) = true) ∧ 1 ≤ one.need.toNat ∧
      (∃ t, exec .efin State.reset = .next t ∧ (t.ent.fin) = true) ∧ State.reset.ent.need = 11 ∧
      (∃ t, exec .efin (entState one) = .next t ∧ (t.ent.fin) = true) ∧
      (∃ t, exec .cksum (entState done16) = .next t ∧ (t.ent.csv) = true) ∧
      ∃ t, exec .merge (entState summed16) = .next t ∧ (t.ent.mrg) = true :=
  ⟨next_of_after (by decide), next_of_after (by decide), by decide, next_of_after (p := fun t => t.ent.fin) (by decide),
    rfl, next_of_after (p := fun t => t.ent.fin) (by decide), next_of_after (p := fun t => t.ent.csv) (by decide +kernel),
    next_of_after (p := fun t => t.ent.mrg) (by decide)⟩

/-- Each reason for DCHAR not to write DIDX: a digit before the last, noise in place of the last digit, WLV = 0. -/
theorem witness_DiceCommandsFrame :
    (∃ t, exec (.dchar 0x36) (diceState 2048 11 0 0) = .next t ∧ (t.dice.dcnt == 1) = true) ∧
      (diceState 2048 11 0 0).dice.dcnt.toNat + 1 ≠ (diceState 2048 11 0 0).dice.ndice.toNat ∧
      (∃ t, exec (.dchar 0x37) (diceState 2048 11 0 10) = .next t ∧ (t.dice.dcnt == 10) = true) ∧
      faceDigit 0x37 = none ∧
      (∃ t, exec (.dchar 0x36) State.reset = .next t ∧ (t.flt.fault) = true) ∧ State.reset.dice.wlv = false ∧
      (∃ t, exec .dclr (diceState 2048 11 5 1) = .next t ∧ (t.dice.dcnt == 0) = true) ∧
      ∃ t, exec (.setwl 6) State.reset = .next t ∧ (t.dice.wlv) = true :=
  ⟨next_of_after (by decide), by decide, next_of_after (by decide), rfl,
    next_of_after (p := fun t => t.flt.fault) (by decide), rfl, next_of_after (by decide),
    next_of_after (p := fun t => t.dice.wlv) (by decide)⟩

/-- EBYTE on two states with one entropy path, DCHAR on two with one dice path, and the two commands in a row. -/
theorem witness_PathsAreIndependent :
    ((faulted .badWlen).ent = State.reset.ent ∧ (faulted .badWlen).hashUnit = State.reset.hashUnit ∧
      ∃ t, exec (.ebyte 1) (faulted .badWlen) = .next t ∧ (t.ent.elen == 1) = true) ∧
    ((diceState 6 1 0 0).dice = ((diceState 6 1 0 0).setEnt one).dice ∧
      ∃ t, exec (.dchar 0x36) (diceState 6 1 0 0) = .next t ∧ (t.dice.dv) = true) ∧
    ∃ s1, exec (.ebyte 1) (diceState 6 1 0 0) = .next s1 ∧
      ∃ s2, exec (.dchar 0x36) s1 = .next s2 ∧ s2.flt.fault = false :=
  ⟨⟨rfl, rfl, next_of_after (by decide)⟩, ⟨rfl, next_of_after (p := fun t => t.dice.dv) (by decide)⟩,
    ⟨_, rfl, _, rfl, by decide⟩⟩

/-- The invariants hold in each phase, and on the dice path one digit before a word is complete. -/
theorem witness_StepKeepsInvariants :
    Inv (entState one) ∧ Inv (entState full31) ∧ Inv (entState done16) ∧ Inv (entState summed16) ∧
      Inv (entState merged16) ∧ Inv (entState done32) ∧ Inv (diceState 32768 15 (6 ^ 14 - 1) 14) ∧
      ∃ t, step ((entState one).setInputs [.command 0x30000023]) = .next t ∧ (t.ent.nchunk == 1) = true :=
  ⟨inv_of_entropy entropyInv_one, inv_of_entropy entropyInv_full31, inv_of_entropy entropyInv_done16,
    inv_of_entropy entropyInv_summed16, inv_of_entropy entropyInv_merged16, inv_of_entropy entropyInv_done32,
    ⟨by constructor <;> decide, diceInv_last_digit, by constructor <;> decide⟩, next_of_after (by decide)⟩

/-- The stream invariant before EFIN, after two bytes with a chunk and a partial one: 0x01 0x23. -/
theorem streamInv_two_bytes : StreamInv (entState (open_ [0x01, 0x23] [9] 3 6)) := by
  have hm : message (open_ [0x01, 0x23] [9] 3 6) = some [0x01, 0x23] := by decide
  refine ⟨fun m h => ?_, fun m h => ?_, fun m h => ?_⟩ <;> obtain rfl := Option.some.inj (hm.symm.trans h) <;> decide

/-- The stream invariant after MERGE, with the checksum bits of SHA-256. -/
theorem streamInv_merged : StreamInv (entState merged16) := by
  have hm : message merged16 = some (List.replicate 16 0) := by decide
  refine ⟨fun m h => ?_, fun m h => ?_, fun m h => ?_⟩ <;> obtain rfl := Option.some.inj (hm.symm.trans h)
  · decide
  · decide
  · decide +kernel

theorem witness_StepKeepsStreams :
    Inv (entState merged16) ∧ StreamInv (entState merged16) ∧ Inv (entState (open_ [0x01, 0x23] [9] 3 6)) ∧
      StreamInv (entState (open_ [0x01, 0x23] [9] 3 6)) ∧
      ∃ t, step ((entState (open_ [0x01, 0x23] [9] 3 6)).setInputs [.command 0x40000000]) = .next t ∧
        (t.ent.nchunk == 2) = true :=
  ⟨inv_of_entropy entropyInv_merged16, streamInv_merged, inv_of_entropy (by constructor <;> decide),
    streamInv_two_bytes, next_of_after (by decide)⟩

theorem witness_ChecksumCountEqualsLeft :
    Inv (entState done16) ∧ (entState done16).ent.csv = false ∧
      (∃ t, exec .cksum (entState done16) = .next t ∧ (t.ent.csv) = true) ∧
      Inv (entState summed16) ∧ (entState summed16).flt.fault = false ∧
      ∃ t, exec .merge (entState summed16) = .next t ∧ (t.ent.mrg) = true :=
  ⟨inv_of_entropy entropyInv_done16, rfl, next_of_after (p := fun t => t.ent.csv) (by decide +kernel),
    inv_of_entropy entropyInv_summed16, rfl, next_of_after (p := fun t => t.ent.mrg) (by decide)⟩

/-- A command in its phase and one out of its phase, in each of the four phases. -/
theorem witness_PhasesGateCommands :
    (phase one = .filling ∧ phase done16 = .finished ∧ phase summed16 = .summed ∧ phase merged16 = .merged) ∧
      (∃ t, exec .cksum (entState one) = .next t ∧ (t.flt.fcause == 2) = true) ∧
      (∃ t, exec (.ebyte 0) (entState one) = .next t ∧ (t.flt.fcause == 0) = true) ∧
      (∃ t, exec .merge (entState done16) = .next t ∧ (t.flt.fcause == 2) = true) ∧
      (∃ t, exec .merge (entState summed16) = .next t ∧ (t.flt.fcause == 0) = true) ∧
      (∃ t, exec .cksum (entState merged16) = .next t ∧ (t.flt.fcause == 2) = true) ∧
      ∃ t, exec .eclr (entState merged16) = .next t ∧ (t.flt.fcause == 0) = true :=
  ⟨by decide, next_of_after (by decide), next_of_after (by decide), next_of_after (by decide),
    next_of_after (by decide), next_of_after (by decide), next_of_after (by decide)⟩

theorem witness_RepeatedPhaseCommandsFault :
    (∃ t, exec .efin (entState one) = .next t ∧ (!t.flt.fault) = true) ∧
      (∃ t, exec .cksum (entState done16) = .next t ∧ (!t.flt.fault) = true) ∧
      ∃ t, exec .merge (entState summed16) = .next t ∧ (!t.flt.fault) = true :=
  ⟨next_of_after (p := fun t => !t.flt.fault) (by decide), next_of_after (p := fun t => !t.flt.fault) (by decide +kernel),
    next_of_after (p := fun t => !t.flt.fault) (by decide)⟩

/-- Two states with the same entropy and different chunks. -/
theorem witness_ChecksumIsFunctionOfEntropy :
    (entState done16).ent.ebuf = (entState { done16 with chunk := Vector.replicate 24 none }).ent.ebuf ∧
      (∃ t, exec .cksum (entState done16) = .next t ∧ (!t.flt.fault) = true) ∧
      ∃ t, exec .cksum (entState { done16 with chunk := Vector.replicate 24 none }) = .next t ∧
        (!t.flt.fault) = true :=
  ⟨rfl, next_of_after (p := fun t => !t.flt.fault) (by decide +kernel),
    next_of_after (p := fun t => !t.flt.fault) (by decide +kernel)⟩

theorem witness_LegalLengthsAndDiceCount :
    legalLength 2 = true ∧ (2 : Half).toNat = 2 ^ 1 * 3 ^ 0 ∧ legalLength 62208 = true ∧
      (62208 : Half).toNat = 2 ^ 8 * 3 ^ 5 ∧ diceCount 62208 = 8 ∧ legalLength 65535 = false := by decide

/-- No byte and the most bytes, with a later command pending. -/
theorem witness_ChunkerClosedForm :
    ((State.reset.setInputs (sends [.nop])).ent = State.reset.ent ∧
      (State.reset.setInputs (sends [.nop])).inputs = sends (([] : List Byte).map .ebyte) ++ sends [.nop]) ∧
    (List.replicate 32 (0xFF : Byte)).length ≤ 32 ∧
      (State.reset.setInputs (sends ((List.replicate 32 0xFF).map .ebyte ++ [.efin]) ++ [.reset none])).inputs =
        sends ((List.replicate 32 0xFF).map .ebyte ++ [.efin]) ++ [.reset none] := ⟨⟨rfl, rfl⟩, by decide, rfl⟩

theorem witness_MnemonicSequence :
    (entState merged16).flt.fault = false ∧ (List.replicate 16 (0 : Byte)).length ∈ [16, 20, 24, 28, 32] ∧
      (List.replicate 32 (0 : Byte)).length ∈ [16, 20, 24, 28, 32] ∧
      ((entState merged16).setInputs
        (sends (.eclr :: (List.replicate 16 0).map .ebyte ++ [.efin, .cksum, .merge]) ++ [])).inputs =
        sends (.eclr :: (List.replicate 16 0).map .ebyte ++ [.efin, .cksum, .merge]) ++ [] :=
  ⟨rfl, by decide, by decide, rfl⟩

/-- Two throws with noise between them, for N = 2. -/
theorem witness_DiceWordCompletes :
    DiceInv (diceState 4 2 0 0).dice ∧ (diceState 4 2 0 0).dice.wlv = true ∧ (diceState 4 2 0 0).dice.dcnt = 0 ∧
      (throws [0x36, 0x0A, 0x37, 0x31]).length = (diceState 4 2 0 0).dice.ndice.toNat ∧
      ((diceState 4 2 0 0).setInputs (sends ([0x36, 0x0A, 0x37, 0x31].map .dchar) ++ [])).inputs =
        sends (([0x36, 0x0A, 0x37, 0x31] : List Byte).map .dchar) ++ [] :=
  ⟨diceInv_four_empty, rfl, rfl, by decide, rfl⟩

/-- No throw, and one throw too few. -/
theorem witness_PartialDiceWordStaysOpen :
    DiceInv (diceState 2 1 0 0).dice ∧ (diceState 2 1 0 0).dice.dv = false ∧
      (throws [0x30]).length < (diceState 2 1 0 0).dice.ndice.toNat ∧
      (throws (List.replicate 14 0x36)).length < (diceState 32768 15 0 0).dice.ndice.toNat :=
  ⟨diceInv_one_digit, rfl, by decide, by decide⟩

/-- L = 6 = 6^1 and L = 4 with N = 2, each before the first throw; and two throws for L = 4 that give 35 mod 4 = 3. -/
theorem witness_DiceIndexIsUnbiased :
    (DiceInv (diceState 6 1 0 0).dice ∧ (diceState 6 1 0 0).dice.wlen.toNat = 6 ^ (diceState 6 1 0 0).dice.ndice.toNat ∧
      (diceState 6 1 0 0).dice.dcnt.toNat + 1 = (diceState 6 1 0 0).dice.ndice.toNat) ∧
      (DiceInv (diceState 4 2 0 0).dice ∧ (diceState 4 2 0 0).flt.fault = false ∧ (diceState 4 2 0 0).dice.dcnt = 0 ∧
        3 < (diceState 4 2 0 0).dice.wlen.toNat ∧ indexAfter (diceState 4 2 0 0) (n := 2) (fun _ => 5) = some 3) ∧
      LegalWith 7776 5 ∧ 7776 = 6 ^ 5 ∧ LegalWith 2048 11 :=
  ⟨⟨diceInv_six, by decide, by decide⟩, ⟨diceInv_four_empty, rfl, rfl, by decide, by decide⟩,
    ⟨by decide, by decide, 5, 5, by decide, by decide⟩, by decide, ⟨by decide, by decide, 11, 0, by decide, by decide⟩⟩

end Sys2Proof.Tests
end

section
/-! The function HASH that is wired at reset (00_scope.md R10). -/

namespace Sys2Proof.Proofs

/-- Settles O28. The statement holds no variable: the hash unit is read off the reset state, and each digest is one
block of SHA-256 (16, 24 or 32 bytes leave room for the padding), which the kernel evaluates. -/
theorem defaultHashExamples : Obligations.DefaultHashExamples := by
  refine ⟨rfl, ?zeros16, ?zeros24, ?zeros32⟩
  case zeros16 => decide +kernel
  case zeros24 => decide +kernel
  case zeros32 => decide +kernel

end Sys2Proof.Proofs
end

section
/-! Which entries of an array hold a value (10_state.md R52): the first k, and no other. -/

namespace Sys2Proof.Safety

open Sys2Proof.Machine

/-- The first k entries of an array hold a value, and no later one does: what `EntropyInv` says of EBUF with k = ELEN
and of CHUNK with k = NCHUNK. -/
def HoldsBelow {α : Type} {n : Nat} (v : Vector (Option α) n) (k : Nat) : Prop :=
  ∀ i < n, v[i]?.join.isSome = decide (i < k)

variable {α : Type} {n k : Nat} {v : Vector (Option α) n}

theorem holdsBelow_replicate_none : HoldsBelow (Vector.replicate n (none : Option α)) 0 := by
  intro i hi
  simp [hi]

/-- Writing the first free entry makes it the last one that holds a value. -/
theorem HoldsBelow.set_next (h : HoldsBelow v k) (hk : k < n) (x : α) : HoldsBelow (v.set k (some x) hk) (k + 1) := by
  intro i hi
  by_cases hik : k = i
  · subst hik; simp [hk]
  · rw [Vector.getElem?_set_ne _ hik, h i hi, decide_eq_decide]
    omega

/-- Writing an entry that holds a value changes none of this. -/
theorem HoldsBelow.set_held (h : HoldsBelow v k) {j : Nat} (hj : j < k) (hn : j < n) (x : α) :
    HoldsBelow (v.set j (some x) hn) k := by
  intro i hi
  by_cases hij : j = i
  · subst hij; simp [hn, hj]
  · rw [Vector.getElem?_set_ne _ hij, h i hi]

variable {e : EntropyPath}

theorem EntropyInv.holdsBelow_ebuf (h : EntropyInv e) : HoldsBelow e.ebuf e.elen.toNat := h.ebuf_holds

theorem EntropyInv.holdsBelow_chunk (h : EntropyInv e) : HoldsBelow e.chunk e.nchunk.toNat := h.chunk_holds

end Sys2Proof.Safety
end

section
/-! The entropy path keeps its invariant, one lemma for each way in which a command changes it, and no command runs out
of entries or reads one that holds no value (10_state.md R51, R52). -/

namespace Sys2Proof.Safety

open Sys2Proof.Machine

theorem EntropyInv.reset : EntropyInv .reset where
  need_range := by decide
  acc_lt := by decide
  counts := by decide
  unfinished _ := by decide
  finished := nofun
  summed := nofun
  unsummed _ := by decide
  merged := nofun
  ebuf_holds := holdsBelow_replicate_none
  chunk_holds := holdsBelow_replicate_none

variable {e : EntropyPath}

/-- Before EFIN there is no checksum yet, so nothing is merged. -/
theorem EntropyInv.unsummed_of_open (h : EntropyInv e) (hf : e.fin = false) : e.csv = false ∧ e.mrg = false := by
  have hc : e.csv = false := by
    by_contra hc
    simp [(h.summed (by simpa using hc)).1] at hf
  refine ⟨hc, ?_⟩
  by_contra hm
  simp [h.merged (by simpa using hm)] at hc

/-- There is room for one more chunk while the chunker is open and EBUF is not full (41_chunker.md R124). -/
theorem EntropyInv.nchunk_lt_of_open (h : EntropyInv e) (hf : e.fin = false) (he : e.elen.toNat < 32) :
    e.nchunk.toNat < 24 := by
  have := (h.unfinished hf).1
  omega

/-! ### EBYTE -/

/-- While the chunker is open the invariant is the closed form of NCHUNK and NEED in ELEN, the bound of ACC, and the
entries that hold a value. -/
theorem EntropyInv.of_filled (h : EntropyInv e) (hf : e.fin = false) {ebuf : Vector (Option Byte) 32}
    {elen : BitVec 6} {acc : Chunk} {need : BitVec 4} {chunk : Vector (Option Chunk) 24} {nchunk : BitVec 5}
    (helen : elen.toNat ≤ 32) (hnchunk : nchunk.toNat = 8 * elen.toNat / 11)
    (hneed : need.toNat = 11 - 8 * elen.toNat % 11) (hacc : acc.toNat < 2 ^ (11 - need.toNat))
    (hebuf : HoldsBelow ebuf elen.toNat) (hchunk : HoldsBelow chunk nchunk.toNat) :
    EntropyInv { e with ebuf, elen, acc, need, chunk, nchunk } := by
  obtain ⟨hc, hm⟩ := h.unsummed_of_open hf
  exact {
    need_range := ⟨by simp only; omega, by simp only; omega⟩
    acc_lt := hacc
    counts := ⟨helen, by simp only; omega⟩
    unfinished := fun _ => ⟨hnchunk, hneed, (h.unfinished hf).2.2⟩
    finished := by simp [hf]
    summed := by simp [hc]
    unsummed := h.unsummed
    merged := by simp [hm]
    ebuf_holds := hebuf
    chunk_holds := hchunk }

/-- Taking k ≤ NEED bits keeps ACC within the bits counted off NEED (41_chunker.md R125). -/
theorem takeBits_acc_lt {b : Byte} {rem k : Nat} (hk : k ≤ e.need.toNat) (hn : e.need.toNat ≤ 11)
    (ha : e.acc.toNat < 2 ^ (11 - e.need.toNat)) :
    (takeBits b rem k e).acc.toNat < 2 ^ (11 - (takeBits b rem k e).need.toNat) := by
  have hbits : b.toNat / 2 ^ (rem - k) % 2 ^ k < 2 ^ k := Nat.mod_lt _ (Nat.two_pow_pos k)
  rw [takeBits_acc_of_lt hk hn ha, takeBits_need]
  calc e.acc.toNat * 2 ^ k + b.toNat / 2 ^ (rem - k) % 2 ^ k
      < (e.acc.toNat + 1) * 2 ^ k := by rw [Nat.add_mul, Nat.one_mul]; omega
    _ ≤ 2 ^ (11 - e.need.toNat) * 2 ^ k := Nat.mul_le_mul_right _ ha
    _ = 2 ^ (11 - (e.need.toNat - k)) := by rw [← Nat.pow_add]; congr 1; omega

theorem EntropyInv.takeByte {e' : EntropyPath} {b : Byte} {done : Option Chunk} (h : EntropyInv e)
    (hf : e.fin = false) (ht : takeByte b e = some (e', done)) : EntropyInv e' := by
  obtain ⟨hn1, hn11⟩ := h.need_range
  obtain ⟨hnchunk, hneed, -⟩ := h.unfinished hf
  obtain ⟨he, hcase⟩ := takeByte_cases hn1 ht
  have helen : (e.elen + 1).toNat = e.elen.toNat + 1 := by simp [BitVec.toNat_add]; omega
  have hebuf : HoldsBelow (e.ebuf.set e.elen.toNat (some b) he) (e.elen + 1).toNat :=
    helen ▸ h.holdsBelow_ebuf.set_next he b
  obtain ⟨h8, -, rfl⟩ | ⟨h8, hc, v, a, -, ha, -, rfl⟩ := hcase
  · -- no chunk: the byte's 8 bits fit into NEED
    set e1 : EntropyPath := { e with ebuf := e.ebuf.set e.elen.toNat (some b) he, elen := e.elen + 1 }
    have hneed' : (takeBits b 8 8 e1).need.toNat = e.need.toNat - 8 := takeBits_need ..
    exact h.of_filled hf (elen := e.elen + 1) (need := (takeBits b 8 8 e1).need) (nchunk := e.nchunk) (by omega)
      (by omega) (by omega) (takeBits_acc_lt (Nat.le_of_lt h8) hn11 h.acc_lt) hebuf h.holdsBelow_chunk
  · -- one chunk: ACC keeps the byte's last 8 - NEED bits
    have hneed' : (e.need + 3).toNat = e.need.toNat + 3 := by simp [BitVec.toNat_add]; omega
    have hnchunk' : (e.nchunk + 1).toNat = e.nchunk.toNat + 1 := by simp [BitVec.toNat_add]; omega
    have hacc : a.toNat < 2 ^ (11 - (e.need + 3).toNat) := by
      rw [ha, hneed', show 11 - (e.need.toNat + 3) = 8 - e.need.toNat by omega]
      exact Nat.mod_lt _ (Nat.two_pow_pos _)
    exact h.of_filled hf (by omega) (by omega) (by omega) hacc hebuf
      (hnchunk' ▸ h.holdsBelow_chunk.set_next hc v)

theorem EntropyInv.isSome_takeByte (h : EntropyInv e) (hf : e.fin = false) (he : e.elen ≠ 32) (b : Byte) :
    (Machine.takeByte b e).isSome := by
  have he' : e.elen.toNat < 32 := by
    have := h.counts.1
    have : e.elen.toNat ≠ 32 := BitVec.toNat_ne_iff_ne.2 he
    omega
  by_cases h8 : 8 < e.need.toNat
  · rw [takeByte_of_gt he' h8]; rfl
  · obtain ⟨v, a, -, -, ht⟩ :=
      takeByte_of_le he' (h.nchunk_lt_of_open hf he') h.need_range.1 (Nat.le_of_not_lt h8) b
    rw [ht]; rfl

/-! ### EFIN -/

/-- After EFIN the invariant is the closed form of NCHUNK and LEFT in ELEN, and the chunks that hold a value. -/
theorem EntropyInv.of_flushed (h : EntropyInv e) (hf : e.fin = false) {chunk : Vector (Option Chunk) 24}
    {nchunk : BitVec 5} {left : BitVec 4} (hnchunk : nchunk.toNat = (8 * e.elen.toNat + 10) / 11)
    (hleft : left.toNat = (11 - 8 * e.elen.toNat % 11) % 11) (hchunk : HoldsBelow chunk nchunk.toNat) :
    EntropyInv { e with chunk, nchunk, left, acc := 0, need := 11, fin := true } := by
  obtain ⟨hc, hm⟩ := h.unsummed_of_open hf
  have helen := h.counts.1
  exact {
    need_range := by simp
    acc_lt := by simp
    counts := ⟨helen, by simp only; omega⟩
    unfinished := nofun
    finished := fun _ => ⟨rfl, rfl, hnchunk, hleft⟩
    summed := by simp [hc]
    unsummed := h.unsummed
    merged := by simp [hm]
    ebuf_holds := h.ebuf_holds
    chunk_holds := hchunk }

theorem EntropyInv.flushChunk {e' : EntropyPath} {p : Bool} (h : EntropyInv e) (hf : e.fin = false)
    (ht : flushChunk e = some (e', p)) : EntropyInv e' := by
  obtain ⟨hnchunk, hneed, -⟩ := h.unfinished hf
  obtain ⟨hn, -, rfl⟩ | ⟨hn, -, hc, rfl⟩ := flushChunk_cases ht
  · -- 8 * ELEN is a multiple of 11: nothing is left over
    have hn' : e.need.toNat = 11 := by simp [hn]
    exact h.of_flushed hf (by omega) (by simp; omega) h.holdsBelow_chunk
  · -- the bits pending become the last chunk, with NEED zero bits
    have hn' : e.need.toNat ≠ 11 := BitVec.toNat_ne_iff_ne.2 hn
    have hnchunk' : (e.nchunk + 1).toNat = e.nchunk.toNat + 1 := by simp [BitVec.toNat_add]; omega
    exact h.of_flushed hf (by omega) (by omega) (hnchunk' ▸ h.holdsBelow_chunk.set_next hc _)

theorem EntropyInv.isSome_flushChunk (h : EntropyInv e) (hf : e.fin = false) : (Machine.flushChunk e).isSome := by
  obtain ⟨hnchunk, hneed, -⟩ := h.unfinished hf
  by_cases hn : e.need = 11
  · rw [Machine.flushChunk, if_pos hn]; rfl
  · have hc : e.nchunk.toNat < 24 := by
      have := h.counts.1
      have : e.need.toNat ≠ 11 := BitVec.toNat_ne_iff_ne.2 hn
      omega
    rw [Machine.flushChunk, if_neg hn, emitChunk_of_lt hc]; rfl

/-! ### CKSUM -/

theorem validEntropyLen_iff (n : Nat) : validEntropyLen n = true ↔ n ∈ [16, 20, 24, 28, 32] := by
  simp [validEntropyLen]

/-- For the five valid lengths the checksum bits are as many as the bits left over (40_checksum.md R111). -/
theorem checksumCount_eq_leftover {n : Nat} (hn : n ∈ [16, 20, 24, 28, 32]) :
    checksumCount n = (11 - 8 * n % 11) % 11 ∧ checksumCount n ≤ 8 := by
  fin_cases hn <;> decide

theorem checksumBits_toNat (msb : Byte) (count : Nat) :
    (checksumBits msb count).toNat = msb.toNat / 2 ^ (8 - count) := by
  have h := msb.isLt
  rw [checksumBits, BitVec.toNat_ofNat, Nat.shiftRight_eq_div_pow]
  exact Nat.mod_eq_of_lt (Nat.lt_of_le_of_lt (Nat.div_le_self ..) h)

theorem checksumBits_lt (msb : Byte) {count : Nat} (hc : count ≤ 8) : (checksumBits msb count).toNat < 2 ^ count := by
  rw [checksumBits_toNat, Nat.div_lt_iff_lt_mul (Nat.two_pow_pos _), ← Nat.pow_add, Nat.add_sub_cancel' hc]
  exact msb.isLt

theorem EntropyInv.recordDigest (h : EntropyInv e) (hf : e.fin = true)
    (hv : validEntropyLen e.elen.toNat = true) (d : Digest) : EntropyInv (recordDigest d e) := by
  have hlen := (validEntropyLen_iff _).1 hv
  obtain ⟨-, -, -, hleft⟩ := h.finished hf
  obtain ⟨hcount, hcount8⟩ := checksumCount_eq_leftover hlen
  have hbits : (BitVec.ofNat 4 (checksumCount e.elen.toNat)).toNat = checksumCount e.elen.toNat := by
    rw [BitVec.toNat_ofNat]; omega
  exact {
    need_range := h.need_range
    acc_lt := h.acc_lt
    counts := h.counts
    unfinished := h.unfinished
    finished := h.finished
    summed := fun _ => ⟨hf, hlen, hbits, BitVec.eq_of_toNat_eq (hbits.trans (hcount.trans hleft.symm)),
      hbits.symm ▸ checksumBits_lt _ hcount8, hbits.symm ▸ checksumBits_toNat ..⟩
    unsummed := nofun
    merged := fun _ => rfl
    ebuf_holds := h.ebuf_holds
    chunk_holds := h.chunk_holds }

/-- Every byte of the message is there to be hashed. -/
theorem EntropyInv.exists_message (h : EntropyInv e) : ∃ m, message e = some m :=
  message_isSome fun i hi => by simpa [hi] using h.ebuf_holds i (by have := h.counts.1; omega)

/-! ### MERGE -/

theorem EntropyInv.mergeChecksum {e' : EntropyPath} {v : Chunk} (h : EntropyInv e) (hs : e.csv = true)
    (hm : mergeChecksum e = some (e', v)) : EntropyInv e' := by
  obtain ⟨hz, hc, u, -, -, rfl⟩ := mergeChecksum_cases hm
  have hz' : e.nchunk.toNat ≠ 0 := BitVec.toNat_ne_iff_ne.2 hz
  exact {
    need_range := h.need_range
    acc_lt := h.acc_lt
    counts := h.counts
    unfinished := h.unfinished
    finished := h.finished
    summed := h.summed
    unsummed := h.unsummed
    merged := fun _ => hs
    ebuf_holds := h.ebuf_holds
    chunk_holds := h.holdsBelow_chunk.set_held (by omega) hc v }

/-- A path with a checksum has a last chunk, and it holds a value. -/
theorem EntropyInv.isSome_mergeChecksum (h : EntropyInv e) (hs : e.csv = true) :
    (Machine.mergeChecksum e).isSome := by
  obtain ⟨hf, hlen, -⟩ := h.summed hs
  obtain ⟨-, -, hnchunk, -⟩ := h.finished hf
  have hpos : 0 < e.nchunk.toNat := by
    simp only [List.mem_cons, List.not_mem_nil, or_false] at hlen
    omega
  have hlt : e.nchunk.toNat - 1 < 24 := by have := h.counts.2; omega
  have hz : e.nchunk ≠ 0 := by rintro h0; simp [h0] at hpos
  obtain ⟨u, hu⟩ : ∃ u, readChunk e (e.nchunk.toNat - 1) = some u :=
    Option.isSome_iff_exists.1 (by rw [h.chunk_holds _ hlt, decide_eq_true_iff]; omega)
  rw [Machine.mergeChecksum, if_neg hz, hu]
  simp only [writeChunk_of_lt hlt, Option.map_some, Option.isSome_some]

end Sys2Proof.Safety
end

section
/-! The dice path keeps its invariant, one lemma for each way in which a command changes it (10_state.md R51, items 7
to 9). -/

namespace Sys2Proof.Safety

open Sys2Proof.Machine

/-! ### Legal lengths (43_dice.md R139) -/

theorem exponent_le (p fuel n : Nat) : exponent p fuel n ≤ fuel := by
  induction fuel generalizing n with
  | zero => exact Nat.le_refl 0
  | succ fuel ih =>
    rw [exponent]
    split
    · exact Nat.succ_le_succ (ih _)
    · exact Nat.zero_le _

/-- N(L) fits NDICE. -/
theorem diceCount_lt (len : Half) : diceCount len < 16 := by
  have h2 := exponent_le 2 15 len.toNat
  have h3 := exponent_le 3 10 len.toNat
  simp only [diceCount, exponents]
  omega

theorem legalWith_diceCount {len : Half} (h : legalLength len = true) : LegalWith len.toNat (diceCount len) := by
  obtain ⟨h2, heq⟩ : 2 ≤ len.toNat ∧ len.toNat = 2 ^ (exponents len).1 * 3 ^ (exponents len).2 := by
    simpa [legalLength] using h
  exact ⟨h2, by have := len.isLt; omega, _, _, heq, rfl⟩

/-- Every legal length takes at least one throw: 2^0 · 3^0 = 1 is not legal. -/
theorem LegalWith.dice_pos {len n : Nat} (h : LegalWith len n) : 0 < n := by
  obtain ⟨h2, -, a, b, rfl, rfl⟩ := h
  by_contra h0
  obtain ⟨rfl, rfl⟩ : a = 0 ∧ b = 0 := by omega
  simp at h2

/-! ### The commands -/

theorem DiceInv.reset : DiceInv .reset where
  configured := nofun
  unconfigured _ := by decide
  fresh := nofun

theorem diceInv_configured {len : Half} (h : legalLength len = true) :
    DiceInv { wlen := len, wlv := true, ndice := BitVec.ofNat 4 (diceCount len), dacc := 0, dcnt := 0, didx := 0,
              dv := false } := by
  have hl := legalWith_diceCount h
  have hn : (BitVec.ofNat 4 (diceCount len)).toNat = diceCount len := by
    have := diceCount_lt len
    rw [BitVec.toNat_ofNat]; omega
  have hpos := hl.1
  exact {
    configured := fun _ => ⟨hn.symm ▸ hl, hn.symm ▸ hl.dice_pos, by simp, by simp; omega⟩
    unconfigured := nofun
    fresh := nofun }

variable {d : DicePath}

theorem DiceInv.clearWord (h : DiceInv d) : DiceInv (clearWord d) where
  configured hw := by
    obtain ⟨hl, -, -, hi⟩ := h.configured hw
    exact ⟨hl, hl.dice_pos, by simp [Machine.clearWord], Nat.lt_of_le_of_lt (Nat.zero_le _) hi⟩
  unconfigured hw := by
    obtain ⟨hl, hn, -⟩ := h.unconfigured hw
    exact ⟨hl, hn, rfl, rfl, rfl, rfl⟩
  fresh := nofun

/-- The index of a completed word is below WLEN, whatever the digits are. -/
theorem DiceInv.completeWord (h : DiceInv d) (hw : d.wlv = true) (acc : Nat) : DiceInv (completeWord acc d) := by
  obtain ⟨hl, -, -, hi⟩ := h.configured hw
  have hidx : acc % d.wlen.toNat < d.wlen.toNat := Nat.mod_lt _ (by omega)
  have hidx' : (BitVec.ofNat 16 (acc % d.wlen.toNat)).toNat = acc % d.wlen.toNat := by
    rw [BitVec.toNat_ofNat, Nat.mod_eq_of_lt (by have := d.wlen.isLt; omega)]
  exact {
    configured := fun _ => ⟨hl, hl.dice_pos, by simp [Machine.completeWord], hidx'.symm ▸ hidx⟩
    unconfigured := by simp [Machine.completeWord, hw]
    fresh := fun _ => ⟨rfl, rfl⟩ }

theorem faceDigit_lt {c : Byte} {digit : Nat} (h : faceDigit c = some digit) : digit < 6 := by
  unfold faceDigit at h
  split at h
  · cases h
  · rename_i hc
    simp only [Bool.or_eq_true, decide_eq_true_eq] at hc
    cases h
    omega

/-- A digit before the last of at most 15 keeps the base-6 value below 6^14, which DACC holds (10_state.md R41). -/
theorem DiceInv.extendWord (h : DiceInv d) (hw : d.wlv = true) (hc : d.dcnt.toNat + 1 ≠ d.ndice.toNat) {digit : Nat}
    (hd : digit < 6) : DiceInv (extendWord (d.dacc.toNat * 6 + digit) (d.dcnt.toNat + 1) d) := by
  obtain ⟨hl, hcnt, hacc, hi⟩ := h.configured hw
  have hn := d.ndice.isLt
  have hacc6 : d.dacc.toNat * 6 + digit < 6 ^ (d.dcnt.toNat + 1) := by rw [Nat.pow_succ]; omega
  have hmax : 6 ^ (d.dcnt.toNat + 1) ≤ 6 ^ 14 := Nat.pow_le_pow_right (by decide) (by omega)
  have hacc' : (BitVec.ofNat 40 (d.dacc.toNat * 6 + digit)).toNat = d.dacc.toNat * 6 + digit := by
    rw [BitVec.toNat_ofNat]; omega
  have hcnt' : (BitVec.ofNat 4 (d.dcnt.toNat + 1)).toNat = d.dcnt.toNat + 1 := by
    rw [BitVec.toNat_ofNat]; omega
  exact {
    configured := fun _ => ⟨hl, by simp only [Machine.extendWord]; omega,
      by simpa only [Machine.extendWord, hacc', hcnt'] using hacc6, hi⟩
    unconfigured := by simp [Machine.extendWord, hw]
    fresh := nofun }

end Sys2Proof.Safety
end

section
/-! What the commands have in common: a command enters a fault, or gives one path new elements, or resets the block. -/

namespace Sys2Proof.Safety

open Sys2Proof.Machine

variable {s t : State}

theorem FaultInv.reset : FaultInv .reset where
  zero_iff := by decide
  code_le := by decide

theorem faultInv_raised (c : Cause) : FaultInv ⟨true, c.code⟩ := by
  cases c <;> exact ⟨by decide, by decide⟩

theorem Inv.respond (h : Inv s) (err : Bool) (data : Half) : Inv (respond err data s) := ⟨h.ent, h.dice, h.flt⟩

theorem Inv.accept (h : Inv s) (rest : List HostEvent) : Inv (accept rest s) := ⟨h.ent, h.dice, h.flt⟩

theorem Inv.raise (h : Inv s) (c : Cause) : Inv (raise c s) := ⟨h.ent, h.dice, faultInv_raised c⟩

theorem Inv.refuse (h : Inv s) : Inv (refuse s) := h.respond ..

theorem Inv.setEnt (h : Inv s) {e : EntropyPath} (he : EntropyInv e) : Inv (s.setEnt e) := ⟨he, h.dice, h.flt⟩

theorem Inv.setDice (h : Inv s) {d : DicePath} (hd : DiceInv d) : Inv (s.setDice d) := ⟨h.ent, hd, h.flt⟩

theorem inv_resetElements (s : State) : Inv (resetElements s) := ⟨EntropyInv.reset, DiceInv.reset, FaultInv.reset⟩

theorem inv_hardwareReset (s : State) : Inv (hardwareReset s) := ⟨EntropyInv.reset, DiceInv.reset, FaultInv.reset⟩

/-! ### Every command keeps the invariants -/

theorem Inv.exec {i : Instr} (h : Inv s) (hx : exec i s = .next t) : Inv t := by
  cases i with
  | nop => exact execNop_cases hx ▸ h.respond ..
  | rst => exact execRst_cases hx ▸ (inv_resetElements s).respond ..
  | eclr => exact execEclr_cases hx ▸ (h.setEnt EntropyInv.reset).respond ..
  | ebyte b =>
    obtain ⟨-, rfl⟩ | ⟨-, -, rfl⟩ | ⟨hf, -, e, done, ht, rfl⟩ := execEbyte_cases hx
    · exact h.raise _
    · exact h.raise _
    · exact (h.setEnt (h.ent.takeByte hf ht)).respond ..
  | efin =>
    obtain ⟨-, rfl⟩ | ⟨hf, e, p, ht, rfl⟩ := execEfin_cases hx
    · exact h.raise _
    · exact (h.setEnt (h.ent.flushChunk hf ht)).respond ..
  | cksum =>
    obtain ⟨-, rfl⟩ | ⟨-, -, -, rfl⟩ | ⟨hf, -, hv, m, -, rfl⟩ := execCksum_cases hx
    · exact h.raise _
    · exact h.raise _
    · exact (h.setEnt (h.ent.recordDigest hf hv _)).respond ..
  | merge =>
    obtain ⟨-, rfl⟩ | ⟨-, -, -, rfl⟩ | ⟨hs, -, -, e, v, hm, rfl⟩ := execMerge_cases hx
    · exact h.raise _
    · exact h.raise _
    · exact (h.setEnt (h.ent.mergeChecksum hs hm)).respond ..
  | rdchk k =>
    obtain ⟨-, rfl⟩ | ⟨-, v, -, rfl⟩ := execRdchk_cases hx
    · exact h.raise _
    · exact h.respond ..
  | setwl len =>
    obtain ⟨-, rfl⟩ | ⟨hl, rfl⟩ := execSetwl_cases hx
    · exact h.raise _
    · exact (h.setDice (diceInv_configured hl)).respond ..
  | dchar c =>
    obtain ⟨-, rfl⟩ | ⟨-, -, rfl⟩ | ⟨hw, digit, hd, ⟨-, -, rfl⟩ | ⟨hc, rfl⟩⟩ := execDchar_cases hx
    · exact h.raise _
    · exact h.respond ..
    · exact (h.setDice (h.dice.completeWord hw _)).respond ..
    · exact (h.setDice (h.dice.extendWord hw hc (faceDigit_lt hd))).respond ..
  | dclr => exact execDclr_cases hx ▸ (h.setDice h.dice.clearWord).respond ..
  | rdreg r => exact execRdreg_cases hx ▸ h.respond ..

theorem Inv.runWord {w : Word} (h : Inv s) (hx : runWord w s = .next t) : Inv t := by
  obtain ⟨i, -, -, hi⟩ | ⟨-, -, rfl⟩ | ⟨-, -, rfl⟩ := runWord_cases hx
  · exact h.exec hi
  · exact h.raise _
  · exact h.refuse

/-! ### No command stops the machine -/

theorem Inv.exists_execEbyte (h : Inv s) (b : Byte) : ∃ t, execEbyte b s = .next t := by
  unfold execEbyte
  split_ifs with hf he
  · exact ⟨_, rfl⟩
  · exact ⟨_, rfl⟩
  · obtain ⟨⟨e, done⟩, ht⟩ :=
      Option.isSome_iff_exists.1 (h.ent.isSome_takeByte (by simpa [chunkerOpen] using hf) he b)
    rw [ht]; exact ⟨_, rfl⟩

theorem Inv.exists_execEfin (h : Inv s) : ∃ t, execEfin s = .next t := by
  unfold execEfin
  split_ifs with hf
  · exact ⟨_, rfl⟩
  · obtain ⟨⟨e, p⟩, ht⟩ :=
      Option.isSome_iff_exists.1 (h.ent.isSome_flushChunk (by simpa [chunkerOpen] using hf))
    rw [ht]; exact ⟨_, rfl⟩

theorem Inv.exists_execCksum (h : Inv s) : ∃ t, execCksum s = .next t := by
  obtain ⟨m, hm⟩ := h.ent.exists_message
  unfold execCksum
  rw [hm]
  split_ifs <;> exact ⟨_, rfl⟩

theorem Inv.exists_execMerge (h : Inv s) : ∃ t, execMerge s = .next t := by
  unfold execMerge
  split_ifs with hd hl
  · exact ⟨_, rfl⟩
  · exact ⟨_, rfl⟩
  · have hs : s.ent.csv = true := by
      simp only [mergeDue, Bool.not_eq_true', Bool.not_eq_false, Bool.and_eq_true] at hd
      exact hd.1
    obtain ⟨⟨e, v⟩, hm⟩ := Option.isSome_iff_exists.1 (h.ent.isSome_mergeChecksum hs)
    rw [hm]; exact ⟨_, rfl⟩

theorem exists_execRdchk (k : BitVec 5) (s : State) : ∃ t, execRdchk k s = .next t := by
  unfold execRdchk
  split_ifs
  · exact ⟨_, rfl⟩
  · cases readChunk s.ent k.toNat <;> exact ⟨_, rfl⟩

theorem exists_execSetwl (len : Half) (s : State) : ∃ t, execSetwl len s = .next t := by
  unfold execSetwl
  split_ifs <;> exact ⟨_, rfl⟩

/-- A configured length is not 0. -/
theorem DiceInv.wlen_ne_zero {d : DicePath} (h : DiceInv d) (hw : d.wlv = true) : d.wlen ≠ 0 := by
  intro h0
  obtain ⟨-, -, -, hi⟩ := h.configured hw
  simp [h0] at hi

theorem Inv.exists_execDchar (h : Inv s) (c : Byte) : ∃ t, execDchar c s = .next t := by
  unfold execDchar
  by_cases hw : s.dice.wlv = true
  case neg => exact ⟨_, if_pos (by simpa using hw)⟩
  case pos =>
    have hz := h.dice.wlen_ne_zero hw
    cases faceDigit c with
    | none => exact ⟨_, if_neg (by simpa using hw)⟩
    | some digit =>
      simp only [hw, hz, if_false, Bool.not_true, Bool.false_eq_true]
      split_ifs <;> exact ⟨_, rfl⟩

theorem Inv.exists_exec (h : Inv s) (i : Instr) : ∃ t, Machine.exec i s = .next t := by
  cases i with
  | nop => exact ⟨_, rfl⟩
  | rst => exact ⟨_, rfl⟩
  | eclr => exact ⟨_, rfl⟩
  | ebyte b => exact h.exists_execEbyte b
  | efin => exact h.exists_execEfin
  | cksum => exact h.exists_execCksum
  | merge => exact h.exists_execMerge
  | rdchk k => exact exists_execRdchk k s
  | setwl len => exact exists_execSetwl len s
  | dchar c => exact h.exists_execDchar c
  | dclr => exact ⟨_, rfl⟩
  | rdreg r => exact ⟨_, rfl⟩

theorem Inv.exists_runWord (h : Inv s) (w : Word) : ∃ t, Machine.runWord w s = .next t := by
  unfold Machine.runWord
  split
  case h_1 i _ => exact h.exists_exec i
  case h_2 => exact ⟨_, rfl⟩
  case h_3 => exact ⟨_, rfl⟩

end Sys2Proof.Safety
end

section
/-! The invariants of 10_state.md R51 and R52: at reset, and along every step. -/

namespace Sys2Proof.Proofs

open Sys2Proof.Machine Sys2Proof.Safety

/-- Settles O39: a hardware reset gives the reset values, and a command word is executed, raises a fault or is refused
on the state that accepted it. -/
theorem stepKeepsInvariants : Obligations.StepKeepsInvariants := by
  intro s t hs hstep
  obtain ⟨_, rest, -, rfl⟩ | ⟨w, rest, -, hw⟩ := step_cases hstep
  · exact inv_hardwareReset _
  · exact (hs.accept rest).runWord hw

/-- Settles O12: of the model's stops, `noEntry` needs a full CHUNK or EBUF, `noValue` an absent entry and `zeroModulus`
a configured length 0, and the invariants exclude all three. -/
theorem everyEventHasItsStep : Obligations.EveryEventHasItsStep := by
  intro s hs hne
  cases hi : s.inputs with
  | nil => exact absurd hi hne
  | cons event rest =>
    cases event with
    | reset a => exact ⟨_, step_reset hi⟩
    | command w => rw [step_command hi]; exact (hs.accept rest).exists_runWord w

/-- The bit streams at reset: the message is empty, there is no chunk, and ACC = 0 is the value of no bits. -/
theorem streamInv_reset : StreamInv State.reset where
  chunks _ _ j hj := absurd hj (Nat.not_lt_zero j)
  pending m hm _ := by
    obtain rfl : m = [] := List.eq_nil_of_length_eq_zero ((message_eq_some_iff _ _).1 hm).1
    rfl
  digest _ _ hc := nomatch hc

/-- Settles O38: the reset values of the three groups of elements, and the streams of an empty message. -/
theorem invariantsHoldAtReset : Obligations.InvariantsHoldAtReset :=
  ⟨⟨EntropyInv.reset, DiceInv.reset, FaultInv.reset⟩, streamInv_reset⟩

end Sys2Proof.Proofs
end

section
/-! Bit streams as lists: their values, the bits of a byte, and the chunk at an index of a stream (20_memory.md R65,
R74). -/

namespace Sys2Proof.Safety

/-! ### The value of bits -/

theorem foldl_bits (l : List Bool) (a : Nat) :
    l.foldl (fun n b => 2 * n + b.toNat) a = a * 2 ^ l.length + bitsValue l := by
  induction l generalizing a with
  | nil => simp [bitsValue]
  | cons b l ih =>
    rw [bitsValue, List.foldl_cons, List.foldl_cons, ih, ih, List.length_cons, Nat.pow_succ]
    ring

theorem bitsValue_append (l r : List Bool) : bitsValue (l ++ r) = bitsValue l * 2 ^ r.length + bitsValue r := by
  rw [bitsValue, List.foldl_append, foldl_bits, ← bitsValue]

theorem bitsValue_cons (b : Bool) (l : List Bool) : bitsValue (b :: l) = b.toNat * 2 ^ l.length + bitsValue l := by
  rw [← List.singleton_append, bitsValue_append]
  simp [bitsValue]

@[simp] theorem bitsValue_replicate_false (n : Nat) : bitsValue (List.replicate n false) = 0 := by
  induction n with
  | zero => rfl
  | succ n ih => simp [List.replicate_succ, bitsValue_cons, ih]

/-! ### The bits of a byte -/

@[simp] theorem length_checksumStream (cs : Byte) (n : Nat) : (checksumStream cs n).length = n := by
  simp [checksumStream]

theorem checksumStream_succ (cs : Byte) (n : Nat) :
    checksumStream cs (n + 1) = cs.getLsbD n :: checksumStream cs n := by
  rw [checksumStream, List.range_succ_eq_map, List.map_cons, List.map_map, checksumStream]
  refine congrArg₂ _ rfl (List.map_congr_left fun i _ => ?_)
  simp only [Function.comp_apply]
  congr 1
  omega

/-- The last n bits of a byte have its low n bits as their value. -/
theorem bitsValue_checksumStream (cs : Byte) (n : Nat) : bitsValue (checksumStream cs n) = cs.toNat % 2 ^ n := by
  induction n with
  | zero => simp [checksumStream, bitsValue, Nat.mod_one]
  | succ n ih =>
    rw [checksumStream_succ, bitsValue_cons, length_checksumStream, ih, Nat.mod_pow_succ, BitVec.getLsbD,
      Nat.toNat_testBit]
    ring

@[simp] theorem length_byteBits (b : Byte) : (byteBits b).length = 8 := by simp [byteBits]

theorem drop_byteBits (b : Byte) (k : Nat) : (byteBits b).drop k = checksumStream b (8 - k) := by
  apply List.ext_getElem
  · simp
  · intro i _ _
    simp only [byteBits, checksumStream, List.getElem_drop, List.getElem_map, List.getElem_range]
    congr 1
    omega

theorem bitsValue_drop_byteBits (b : Byte) (k : Nat) :
    bitsValue ((byteBits b).drop k) = b.toNat % 2 ^ (8 - k) := by
  rw [drop_byteBits, bitsValue_checksumStream]

theorem bitsValue_byteBits (b : Byte) : bitsValue (byteBits b) = b.toNat := by
  simpa using (bitsValue_drop_byteBits b 0).trans (Nat.mod_eq_of_lt b.isLt)

/-- The first k bits of a byte are what is left of it without its last 8 - k. -/
theorem bitsValue_take_byteBits (b : Byte) (k : Nat) :
    bitsValue ((byteBits b).take k) = b.toNat / 2 ^ (8 - k) := by
  have hsplit := bitsValue_append ((byteBits b).take k) ((byteBits b).drop k)
  rw [List.take_append_drop, bitsValue_byteBits, bitsValue_drop_byteBits, List.length_drop, length_byteBits] at hsplit
  have hdiv := Nat.div_add_mod' b.toNat (2 ^ (8 - k))
  exact Nat.eq_of_mul_eq_mul_right (Nat.two_pow_pos (8 - k)) (by omega)

@[simp] theorem length_streamBits (m : List Byte) : (streamBits m).length = 8 * m.length := by
  simp [streamBits, List.length_flatMap, Nat.mul_comm]

theorem streamBits_concat (m : List Byte) (b : Byte) : streamBits (m ++ [b]) = streamBits m ++ byteBits b := by
  simp [streamBits]

/-! ### The chunk at an index -/

variable {l r : List Bool} {j : Nat}

/-- A chunk that lies within the first part of a stream. -/
theorem chunkAt_append_left (h : 11 * (j + 1) ≤ l.length) : chunkAt (l ++ r) j = chunkAt l j := by
  rw [chunkAt, chunkAt, List.drop_append_of_le_length (by omega),
    List.take_append_of_le_length (by rw [List.length_drop]; omega)]

/-- The chunk in which a stream's second part begins and takes up the last k bits. -/
theorem chunkAt_append_of_straddle {k : Nat} (hk : k ≤ 11) (h : l.length + k = 11 * (j + 1)) :
    chunkAt (l ++ r) j = BitVec.ofNat 11 (bitsValue (l.drop (11 * j) ++ r.take k)) := by
  have hrest : (l.drop (11 * j)).length = 11 - k := by rw [List.length_drop]; omega
  rw [chunkAt, List.drop_append_of_le_length (by omega), List.take_append, List.take_of_length_le (by omega), hrest,
    show 11 - (11 - k) = k by omega]

/-- Over zero bits at the end of a chunk, OR puts the checksum bits in their place (42_entropy_mapper.md R130). -/
theorem chunkAt_append_zeros_or {cs : Byte} {k : Nat} (hk : k ≤ 11) (h : l.length + k = 11 * (j + 1))
    (hcs : cs.toNat < 2 ^ k) :
    chunkAt (l ++ List.replicate k false) j ||| cs.setWidth 11 = chunkAt (l ++ checksumStream cs k) j := by
  rw [chunkAt_append_of_straddle hk h, chunkAt_append_of_straddle hk h, List.take_of_length_le (by simp),
    List.take_of_length_le (by simp), bitsValue_append, bitsValue_append, bitsValue_replicate_false,
    bitsValue_checksumStream, Nat.mod_eq_of_lt hcs, List.length_replicate, length_checksumStream, Nat.add_zero,
    ← BitVec.ofNat_toNat, ← BitVec.ofNat_or, ← Nat.shiftLeft_eq, Nat.shiftLeft_add_eq_or_of_lt hcs]

end Sys2Proof.Safety
end

section
/-! The entropy path keeps its streams, one lemma for each way in which a command changes it (20_memory.md R64, R65,
R74; 41_chunker.md R123). -/

namespace Sys2Proof.Safety

open Sys2Proof.Machine

variable {s : State} {e : EntropyPath}

/-! ### The message and the streams of other elements -/

theorem length_of_message {m : List Byte} (hm : message e = some m) : m.length = e.elen.toNat :=
  ((message_eq_some_iff e m).1 hm).1

theorem length_streamBits_of_message {m : List Byte} (hm : message e = some m) :
    (streamBits m).length = 8 * e.elen.toNat := by
  rw [length_streamBits, length_of_message hm]

/-- Storing a byte at EBUF[ELEN] appends it to the message. -/
theorem message_concat {m : List Byte} (hm : message e = some m) (he : e.elen.toNat < 32) (b : Byte) :
    message { e with ebuf := e.ebuf.set e.elen.toNat (some b) he, elen := e.elen + 1 } = some (m ++ [b]) := by
  obtain ⟨hlen, hget⟩ := (message_eq_some_iff e m).1 hm
  have helen : (e.elen + 1).toNat = e.elen.toNat + 1 := by simp [BitVec.toNat_add]; omega
  rw [message_eq_some_iff]
  refine ⟨by rw [List.length_append, hlen, helen, List.length_singleton], fun i hi => ?_⟩
  simp only [helen] at hi
  refine (readEbuf_set he e b i).trans ?_
  by_cases hlast : i = e.elen.toNat
  · simp [hlast, ← hlen]
  · rw [if_neg hlast, hget i (by omega), List.getElem?_append_left (by omega)]

/-- The streams are read off the entropy path and the hash port alone. -/
theorem StreamInv.of_same {t : State} (h : StreamInv s) (hent : t.ent = s.ent) (hhash : t.hashUnit = s.hashUnit) :
    StreamInv t where
  chunks := hent ▸ h.chunks
  pending := hent ▸ h.pending
  digest := hhash ▸ hent ▸ h.digest

theorem EntropyInv.streamTail_of_open (h : EntropyInv e) (hf : e.fin = false) : streamTail e = [] := by
  simp [streamTail, (h.unsummed_of_open hf).2, (h.unfinished hf).2.2]

/-- A path has one message, so its streams are stated for that one. -/
theorem StreamInv.of_message {m : List Byte} (hm : message s.ent = some m)
    (hchunks : ∀ j < s.ent.nchunk.toNat, readChunk s.ent j = some (chunkAt (streamBits m ++ streamTail s.ent) j))
    (hpending : s.ent.fin = false → s.ent.acc.toNat = bitsValue ((streamBits m).drop (11 * s.ent.nchunk.toNat)))
    (hdigest : s.ent.csv = true → s.ent.dmsb = digestMsb (hashDigest s.hashUnit m)) : StreamInv s := by
  refine ⟨fun m' hm' => ?_, fun m' hm' => ?_, fun m' hm' => ?_⟩ <;> obtain rfl := Option.some.inj (hm.symm.trans hm')
  · exact hchunks
  · exact hpending
  · exact hdigest

/-! ### Reset and ECLR -/

theorem streamInv_of_ent_reset (h : s.ent = .reset) : StreamInv s where
  chunks := h ▸ Proofs.streamInv_reset.chunks
  pending := h ▸ Proofs.streamInv_reset.pending
  digest := h ▸ nofun

/-! ### EBYTE -/

/-- While the chunker is open the chunks lie within the bits of EBUF, which nothing follows, and no digest is there. -/
theorem streamInv_setEnt_of_open (hi : EntropyInv e) (hf : e.fin = false) {m : List Byte} (hm : message e = some m)
    (hchunks : ∀ j < e.nchunk.toNat, readChunk e j = some (chunkAt (streamBits m) j))
    (hacc : e.acc.toNat = bitsValue ((streamBits m).drop (11 * e.nchunk.toNat))) : StreamInv (s.setEnt e) := by
  refine .of_message hm ?_ (fun _ => hacc) fun hc => ?_
  · simpa only [State.setEnt_ent, hi.streamTail_of_open hf, List.append_nil] using hchunks
  · simp [(hi.unsummed_of_open hf).1] at hc

/-- The chunks emitted before EFIN, and what bits may follow the bits of EBUF does not matter to them. -/
theorem StreamInv.readChunk_of_open (h : StreamInv s) (hi : EntropyInv s.ent) (hf : s.ent.fin = false)
    {m : List Byte} (hm : message s.ent = some m) (r : List Bool) {j : Nat} (hj : j < s.ent.nchunk.toNat) :
    readChunk s.ent j = some (chunkAt (streamBits m ++ r) j) := by
  have hin : 11 * (j + 1) ≤ (streamBits m).length := by
    have := (hi.unfinished hf).1
    rw [length_streamBits_of_message hm]
    omega
  rw [h.chunks m hm j hj, hi.streamTail_of_open hf, List.append_nil, chunkAt_append_left hin]

/-- The chunks once one more is emitted. -/
theorem StreamInv.readChunk_of_emit (h : StreamInv s) (hi : EntropyInv s.ent) (hf : s.ent.fin = false)
    {m : List Byte} (hm : message s.ent = some m) {r : List Bool} (hc : s.ent.nchunk.toNat < 24) {v : Chunk}
    (hv : v = chunkAt (streamBits m ++ r) s.ent.nchunk.toNat) {j : Nat} (hj : j < (s.ent.nchunk + 1).toNat) :
    (s.ent.chunk.set s.ent.nchunk.toNat (some v) hc)[j]?.join = some (chunkAt (streamBits m ++ r) j) := by
  have hnchunk : (s.ent.nchunk + 1).toNat = s.ent.nchunk.toNat + 1 := by simp [BitVec.toNat_add]; omega
  rw [readChunk_set hc]
  by_cases hlast : j = s.ent.nchunk.toNat
  · rw [if_pos hlast, hlast, hv]
  · rw [if_neg hlast]
    exact h.readChunk_of_open hi hf hm r (by omega)

theorem StreamInv.takeByte {e' : EntropyPath} {b : Byte} {done : Option Chunk} (h : StreamInv s)
    (hi : EntropyInv s.ent) (hf : s.ent.fin = false) (ht : takeByte b s.ent = some (e', done)) :
    StreamInv (s.setEnt e') := by
  obtain ⟨m, hm⟩ := hi.exists_message
  have hi' := hi.takeByte hf ht
  obtain ⟨hnchunk, hneed, -⟩ := hi.unfinished hf
  have hlen := length_streamBits_of_message hm
  have hle : 11 * s.ent.nchunk.toNat ≤ (streamBits m).length := by omega
  have hacc := h.pending m hm hf
  obtain ⟨he, ⟨h8, -, rfl⟩ | ⟨h8, hc, v, a, hv, ha, -, rfl⟩⟩ := takeByte_cases hi.need_range.1 ht
  · -- no chunk: ACC takes all the bits of the byte
    refine streamInv_setEnt_of_open hi' hf (message_concat hm he b) ?_ ?_
    · rw [streamBits_concat]; exact fun j => h.readChunk_of_open hi hf hm _
    · refine (takeBits_acc_of_lt (Nat.le_of_lt h8) hi.need_range.2 hi.acc_lt).trans ?_
      rw [streamBits_concat, takeBits_nchunk,
        List.drop_append_of_le_length hle, bitsValue_append, bitsValue_byteBits, ← hacc, length_byteBits, Nat.sub_self,
        Nat.pow_zero, Nat.div_one, Nat.mod_eq_of_lt b.isLt]
  · -- one chunk: it ends with the byte's first NEED bits, and ACC holds the others
    have hnchunk' : (s.ent.nchunk + 1).toNat = s.ent.nchunk.toNat + 1 := by simp [BitVec.toNat_add]; omega
    have hfull : (streamBits m).length + s.ent.need.toNat = 11 * (s.ent.nchunk.toNat + 1) := by omega
    have hnew : v = chunkAt (streamBits m ++ byteBits b) s.ent.nchunk.toNat := by
      rw [chunkAt_append_of_straddle hi.need_range.2 hfull, bitsValue_append, bitsValue_take_byteBits,
        ← hacc, List.length_take_of_le (by simpa using h8)]
      exact BitVec.eq_of_toNat_eq hv
    refine streamInv_setEnt_of_open hi' hf (message_concat hm he b) ?_ ?_
    · rw [streamBits_concat]; exact fun j => h.readChunk_of_emit hi hf hm hc hnew
    · simp only [hnchunk']
      rw [streamBits_concat, ← hfull, List.drop_length_add_append, bitsValue_drop_byteBits, ha]

/-! ### EFIN -/

theorem StreamInv.flushChunk {e' : EntropyPath} {p : Bool} (h : StreamInv s) (hi : EntropyInv s.ent)
    (hf : s.ent.fin = false) (ht : flushChunk s.ent = some (e', p)) : StreamInv (s.setEnt e') := by
  obtain ⟨m, hm⟩ := hi.exists_message
  obtain ⟨hnchunk, hneed, -⟩ := hi.unfinished hf
  obtain ⟨hcsv, hmrg⟩ := hi.unsummed_of_open hf
  have hlen := length_streamBits_of_message hm
  obtain ⟨-, -, rfl⟩ | ⟨-, -, hc, rfl⟩ := flushChunk_cases ht
  · -- nothing is pending
    exact .of_message hm (fun j => h.readChunk_of_open hi hf hm _) nofun (by simp [hcsv])
  · -- the bits pending become the last chunk, followed by NEED = LEFT zero bits
    refine .of_message hm (fun j => h.readChunk_of_emit hi hf hm hc ?_) nofun (by simp [hcsv])
    simp only [streamTail, State.setEnt_ent, hmrg, Bool.false_eq_true, if_false]
    rw [chunkAt_append_of_straddle hi.need_range.2 (by omega), List.take_of_length_le (by simp), bitsValue_append,
      ← h.pending m hm hf, bitsValue_replicate_false, List.length_replicate, Nat.shiftLeft_eq, Nat.add_zero]

/-! ### CKSUM -/

theorem StreamInv.recordDigest {m : List Byte} (h : StreamInv s) (hi : EntropyInv s.ent) (hf : s.ent.fin = true)
    (hc : s.ent.csv = false) (hm : message s.ent = some m) :
    StreamInv (s.setEnt (recordDigest (hashDigest s.hashUnit m) s.ent)) := by
  have hmrg : s.ent.mrg = false := by
    by_contra hmrg
    simp [hi.merged (by simpa using hmrg)] at hc
  have htail : streamTail (Machine.recordDigest (hashDigest s.hashUnit m) s.ent) = streamTail s.ent := by
    simp [streamTail, Machine.recordDigest, hmrg]
  refine .of_message hm (fun j hj => ?_) (fun hopen => nomatch hf.symm.trans hopen) fun _ => rfl
  rw [State.setEnt_ent, htail]
  exact h.chunks m hm j hj

/-! ### MERGE -/

theorem StreamInv.mergeChecksum {e' : EntropyPath} {v : Chunk} (h : StreamInv s) (hi : EntropyInv s.ent)
    (hc : s.ent.csv = true) (hmrg : s.ent.mrg = false) (hm : mergeChecksum s.ent = some (e', v)) :
    StreamInv (s.setEnt e') := by
  obtain ⟨m, hmsg⟩ := hi.exists_message
  obtain ⟨hf, -, -, hleft, hcs, -⟩ := hi.summed hc
  obtain ⟨-, -, hnchunk, hleft'⟩ := hi.finished hf
  rw [← hleft] at hleft'
  have hlen := length_streamBits_of_message hmsg
  have hzeros : streamTail s.ent = List.replicate s.ent.csbits.toNat false := by simp [streamTail, hmrg, hleft]
  obtain ⟨hz, hlt, u, hu, rfl, rfl⟩ := mergeChecksum_cases hm
  have hz' : s.ent.nchunk.toNat ≠ 0 := BitVec.toNat_ne_iff_ne.2 hz
  refine .of_message hmsg (fun j hj => ?_) (fun hopen => nomatch hf.symm.trans hopen) fun _ => h.digest m hmsg hc
  simp only [State.setEnt_ent] at hj
  have hold := h.chunks m hmsg j hj
  rw [hzeros] at hold
  refine (readChunk_set hlt s.ent _ j).trans ?_
  simp only [streamTail, State.setEnt_ent, if_true]
  by_cases hlast : j = s.ent.nchunk.toNat - 1
  · obtain rfl : u = _ := Option.some.inj (hu.symm.trans (hlast ▸ hold))
    rw [if_pos hlast, ← hlast, chunkAt_append_zeros_or (by omega) (by omega) hcs]
  · rw [if_neg hlast, hold, chunkAt_append_left (by omega), chunkAt_append_left (by omega)]

/-! ### Every command -/

variable {t : State}

theorem StreamInv.exec {i : Instr} (h : StreamInv s) (hi : Inv s) (hx : exec i s = .next t) : StreamInv t := by
  cases i with
  | nop => exact execNop_cases hx ▸ h.of_same rfl rfl
  | rst => exact execRst_cases hx ▸ streamInv_of_ent_reset rfl
  | eclr => exact execEclr_cases hx ▸ streamInv_of_ent_reset rfl
  | ebyte b =>
    obtain ⟨-, rfl⟩ | ⟨-, -, rfl⟩ | ⟨hf, -, e, done, ht, rfl⟩ := execEbyte_cases hx
    · exact h.of_same rfl rfl
    · exact h.of_same rfl rfl
    · exact (h.takeByte hi.ent hf ht).of_same rfl rfl
  | efin =>
    obtain ⟨-, rfl⟩ | ⟨hf, e, p, ht, rfl⟩ := execEfin_cases hx
    · exact h.of_same rfl rfl
    · exact (h.flushChunk hi.ent hf ht).of_same rfl rfl
  | cksum =>
    obtain ⟨-, rfl⟩ | ⟨-, -, -, rfl⟩ | ⟨hf, hc, -, m, hm, rfl⟩ := execCksum_cases hx
    · exact h.of_same rfl rfl
    · exact h.of_same rfl rfl
    · exact (h.recordDigest hi.ent hf hc hm).of_same rfl rfl
  | merge =>
    obtain ⟨-, rfl⟩ | ⟨-, -, -, rfl⟩ | ⟨hc, hmrg, -, e, v, hm, rfl⟩ := execMerge_cases hx
    · exact h.of_same rfl rfl
    · exact h.of_same rfl rfl
    · exact (h.mergeChecksum hi.ent hc hmrg hm).of_same rfl rfl
  | rdchk k =>
    obtain ⟨-, rfl⟩ | ⟨-, v, -, rfl⟩ := execRdchk_cases hx
    · exact h.of_same rfl rfl
    · exact h.of_same rfl rfl
  | setwl len =>
    obtain ⟨-, rfl⟩ | ⟨-, rfl⟩ := execSetwl_cases hx
    · exact h.of_same rfl rfl
    · exact h.of_same rfl rfl
  | dchar c =>
    obtain ⟨-, rfl⟩ | ⟨-, -, rfl⟩ | ⟨-, digit, -, ⟨-, -, rfl⟩ | ⟨-, rfl⟩⟩ := execDchar_cases hx
    · exact h.of_same rfl rfl
    · exact h.of_same rfl rfl
    · exact h.of_same rfl rfl
    · exact h.of_same rfl rfl
  | dclr => exact execDclr_cases hx ▸ h.of_same rfl rfl
  | rdreg r => exact execRdreg_cases hx ▸ h.of_same rfl rfl

theorem StreamInv.runWord {w : Word} (h : StreamInv s) (hi : Inv s) (hx : runWord w s = .next t) : StreamInv t := by
  obtain ⟨i, -, -, hexec⟩ | ⟨-, -, rfl⟩ | ⟨-, -, rfl⟩ := runWord_cases hx
  · exact h.exec hi hexec
  · exact h.of_same rfl rfl
  · exact h.of_same rfl rfl

end Sys2Proof.Safety
end

section
/-! The bit streams along every step (20_memory.md R64, R65, R74; 41_chunker.md R123). -/

namespace Sys2Proof.Proofs

open Sys2Proof.Machine Sys2Proof.Safety

/-- Settles O40: a reset leaves an empty stream; a command word runs on the state that accepted it, and there only
EBYTE, EFIN, CKSUM, MERGE and the resets touch what the streams are read off. -/
theorem stepKeepsStreams : Obligations.StepKeepsStreams := by
  intro s t hi h hstep
  obtain ⟨_, rest, -, rfl⟩ | ⟨w, rest, -, hw⟩ := step_cases hstep
  · exact streamInv_of_ent_reset rfl
  · exact (h.of_same rfl rfl : StreamInv (accept rest s)).runWord (hi.accept rest) hw

end Sys2Proof.Proofs
end

section
/-! The host's events and the ports; the commands that read; the commands that leave a phase (20_memory.md R66, R69). -/

namespace Sys2Proof.Proofs

open Sys2Proof.Machine Sys2Proof.Safety

variable {s t : State}

/-! ### The events and the hash port -/

/-- No command takes an event or rewires the hash port. -/
theorem exec_keeps_inputs_hashUnit {i : Instr} (h : exec i s = .next t) :
    t.inputs = s.inputs ∧ t.hashUnit = s.hashUnit := by
  obtain ⟨c, rfl⟩ | ⟨-, rfl⟩ | ⟨e, d, data, rfl⟩ := exec_shape h <;> exact ⟨rfl, rfl⟩

theorem runWord_keeps_inputs_hashUnit {w : Word} (h : runWord w s = .next t) :
    t.inputs = s.inputs ∧ t.hashUnit = s.hashUnit := by
  obtain ⟨i, -, -, hi⟩ | ⟨-, -, rfl⟩ | ⟨-, -, rfl⟩ := runWord_cases h
  · exact exec_keeps_inputs_hashUnit hi
  · exact ⟨rfl, rfl⟩
  · exact ⟨rfl, rfl⟩

/-- Settles O11: both kinds of event are taken off the head of the list before anything else, and nothing after that
writes the list or the hash port. -/
theorem stepTakesOneEventInOrder : Obligations.StepTakesOneEventInOrder := by
  refine ⟨fun s hi => by rw [step, hi], fun s t h => ?_⟩
  obtain ⟨a, rest, hi, rfl⟩ | ⟨w, rest, hi, hw⟩ := step_cases h
  · rw [hi]; exact ⟨rfl, rfl⟩
  · rw [hi]; exact runWord_keeps_inputs_hashUnit hw

/-! ### NOP, RDREG and RDCHK -/

/-- No register shows the response port. -/
theorem readReg_respond (r : Reg) (err : Bool) (data : Half) (s : State) :
    readReg r (respond err data s) = readReg r s := by
  cases r <;> rfl

/-- What the three read commands can do: answer, with the same answer once it is given, or RDCHK faults. -/
theorem exec_read_cases {i : Instr} (hi : i = .nop ∨ (∃ r, i = .rdreg r) ∨ ∃ k, i = .rdchk k)
    (h : exec i s = .next t) :
    (∃ data, t = respond false data s ∧ exec i t = .next t) ∨
    (t = raise .badIndex s ∧
      ∃ k : BitVec 5, i = .rdchk k ∧ (s.ent.nchunk.toNat ≤ k.toNat ∨ readChunk s.ent k.toNat = none)) := by
  obtain rfl | ⟨r, rfl⟩ | ⟨k, rfl⟩ := hi
  · obtain rfl := execNop_cases h
    exact .inl ⟨_, rfl, rfl⟩
  · obtain rfl := execRdreg_cases h
    refine .inl ⟨_, rfl, ?_⟩
    rw [exec, execRdreg, readReg_respond]; rfl
  · obtain ⟨hbad, rfl⟩ | ⟨hk, v, hv, rfl⟩ := execRdchk_cases h
    · exact .inr ⟨rfl, k, rfl, hbad⟩
    · refine .inl ⟨_, rfl, ?_⟩
      rw [exec, execRdchk, respond_ent, if_neg (by omega), hv]; rfl

/-- RDCHK raises BAD_INDEX where CHUNK holds no value for it (42_entropy_mapper.md R131). -/
theorem exec_rdchk_of_bad {k : BitVec 5} (h : s.ent.nchunk.toNat ≤ k.toNat ∨ readChunk s.ent k.toNat = none) :
    exec (.rdchk k) s = .next (raise .badIndex s) := by
  rw [exec, execRdchk]
  split_ifs with hk
  · rfl
  · rw [h.resolve_left hk]

/-- Settles O34: an answer writes the response port alone, which no command reads; a fault writes FAULT and FCAUSE
too, and is raised again from the same CHUNK. -/
theorem readCommandsFrame : Obligations.ReadCommandsFrame := by
  intro i s t hi h
  obtain ⟨data, rfl, hagain⟩ | ⟨rfl, k, rfl, hbad⟩ := exec_read_cases hi h
  · exact ⟨rfl, rfl, rfl, rfl, fun _ => hagain, fun hne => absurd rfl hne⟩
  · refine ⟨rfl, rfl, rfl, rfl, fun _ => ?_, fun _ => ⟨rfl, k, rfl, hbad⟩⟩
    exact exec_rdchk_of_bad (s := raise .badIndex s) hbad

/-! ### EFIN, CKSUM and MERGE -/

theorem exec_efin_of_fin (h : s.ent.fin = true) : exec .efin s = .next (raise .sequence s) :=
  if_pos (by simp [chunkerOpen, h])

theorem exec_cksum_of_csv (h : s.ent.csv = true) : exec .cksum s = .next (raise .sequence s) :=
  if_pos (by simp [checksumDue, h])

theorem exec_merge_of_mrg (h : s.ent.mrg = true) : exec .merge s = .next (raise .sequence s) :=
  if_pos (by simp [mergeDue, h])

theorem flushChunk_fin {e e' : EntropyPath} {p : Bool} (h : flushChunk e = some (e', p)) : e'.fin = true := by
  obtain ⟨-, -, rfl⟩ | ⟨-, -, -, rfl⟩ := flushChunk_cases h <;> rfl

/-- Settles O43: each of the three that does not fault sets the flag (FIN, CSV or MRG) that puts a second one out of
phase (41_chunker.md R122). -/
theorem repeatedPhaseCommandsFault : Obligations.RepeatedPhaseCommandsFault := by
  rintro i s t (rfl | rfl | rfl) h hok
  · obtain ⟨-, rfl⟩ | ⟨-, e, p, hflush, rfl⟩ := execEfin_cases h
    · cases hok
    · exact exec_efin_of_fin (flushChunk_fin hflush)
  · obtain ⟨-, rfl⟩ | ⟨-, -, -, rfl⟩ | ⟨-, -, -, m, -, rfl⟩ := execCksum_cases h
    · cases hok
    · cases hok
    · exact exec_cksum_of_csv rfl
  · obtain ⟨-, rfl⟩ | ⟨-, -, -, rfl⟩ | ⟨-, -, -, e, v, hmerge, rfl⟩ := execMerge_cases h
    · cases hok
    · cases hok
    · obtain ⟨-, hc, u, -, -, rfl⟩ := mergeChecksum_cases hmerge
      exact exec_merge_of_mrg rfl

end Sys2Proof.Proofs
end

section
/-! The decoder and the encoder, by the fields of a word (30_encoding.md R81 to R86): a command as a mnemonic and its
operand, the decoder's answer where a check fails and where all hold, and match and mask. -/

namespace Sys2Proof

variable {w : Word} {op : Op}

/-! ### A command and its mnemonic with its operand -/

@[simp] theorem Op.op_toInstr (op : Op) (imm : Half) : (op.toInstr imm).op = op := by cases op <;> rfl

/-- The operand of a command is the whole of its IMM field (30_encoding.md R82, R83). -/
@[simp] theorem Instr.toInstr_op_imm (i : Instr) : i.op.toInstr i.imm = i := by
  cases i with
  | ebyte b => exact congrArg Instr.ebyte (extract_setWidth (by decide) b)
  | rdchk k => exact congrArg Instr.rdchk (extract_setWidth (by decide) k)
  | dchar c => exact congrArg Instr.dchar (extract_setWidth (by decide) c)
  | rdreg r =>
    have hr := extract_setWidth (by decide) r.number
    simp [Instr.op, Instr.imm, Op.toInstr, hr]
  | setwl len => rfl
  | nop | rst | eclr | efin | cksum | merge | dclr => rfl

/-- A command takes every bit of an IMM that has no bit outside the operand field (30_encoding.md R82, R84). -/
theorem Op.imm_toInstr {imm : Half} (h : imm &&& ~~~ op.format.imask = 0) : (op.toInstr imm).imm = imm := by
  cases op with
  | ebyte => exact setWidth_extract 0x00FF imm (by decide) h
  | dchar => exact setWidth_extract 0x00FF imm (by decide) h
  | rdchk => exact setWidth_extract 0x001F imm (by decide) h
  | rdreg =>
    simp only [Op.toInstr, Instr.imm, Reg.number_ofNumber]
    exact setWidth_extract 0x000F imm (by decide) h
  | setwl => rfl
  | nop | rst | eclr | efin | cksum | merge | dclr => exact (BitVec.and_allOnes.symm.trans h).symm

/-! ### The decoder, check by check -/

theorem decode_of_fields (hop : Op.ofCode (opField w) = some op) (hr : rsvField w = 0)
    (hi : immField w &&& ~~~ op.format.imask = 0) : decode w = .ok (op.toInstr (immField w)) := by
  simp [decode, hop, hr, hi]

theorem opcodeOk_iff_exists : opcodeOk w = true ↔ ∃ op, Op.ofCode (opField w) = some op := by
  rw [opcodeOk_iff, Option.isSome_iff_exists]

theorem decode_of_not_opcodeOk (ho : opcodeOk w = false) : decode w = .error .reservedOpcode := by
  have hnone : Op.ofCode (opField w) = none := by simpa [ho] using opcodeOk_iff w
  simp [decode, hnone]

theorem decode_of_not_rsvOk (ho : opcodeOk w = true) (hr : rsvOk w = false) : decode w = .error .reservedBits := by
  obtain ⟨op, hop⟩ := opcodeOk_iff_exists.1 ho
  have hne : rsvField w ≠ 0 := by simpa [hr] using rsvOk_iff w
  simp only [decode, hop, if_pos hne]

theorem decode_of_not_immOk (ho : opcodeOk w = true) (hr : rsvOk w = true) (hi : immOk w = false) :
    decode w = .error .strayImmediate := by
  obtain ⟨op, hop⟩ := opcodeOk_iff_exists.1 ho
  have hne : immField w &&& ~~~ op.format.imask ≠ 0 := by simpa [hi] using immOk_iff hop
  simp only [decode, hop, (rsvOk_iff w).1 hr, if_pos hne]
  rfl

/-! ### Well-formed words (30_encoding.md R84) -/

theorem wellFormed_iff_checks : wellFormed w = true ↔ opcodeOk w = true ∧ rsvOk w = true ∧ immOk w = true := by
  simp [wellFormed, and_assoc]

theorem wellFormed_iff_fields :
    wellFormed w = true ↔
      ∃ op, Op.ofCode (opField w) = some op ∧ rsvField w = 0 ∧ immField w &&& ~~~ op.format.imask = 0 := by
  rw [wellFormed_iff_checks]
  constructor
  · rintro ⟨ho, hr, hi⟩
    obtain ⟨op, hop⟩ := opcodeOk_iff_exists.1 ho
    exact ⟨op, hop, (rsvOk_iff w).1 hr, (immOk_iff hop).1 hi⟩
  · rintro ⟨op, hop, hr, hi⟩
    exact ⟨opcodeOk_iff_exists.2 ⟨op, hop⟩, (rsvOk_iff w).2 hr, (immOk_iff hop).2 hi⟩

theorem wellFormed_iff_decode : wellFormed w = true ↔ ∃ i, decode w = .ok i := by
  rw [wellFormed_iff_fields]
  constructor
  · rintro ⟨op, hop, hr, hi⟩
    exact ⟨_, decode_of_fields hop hr hi⟩
  · rintro ⟨i, hd⟩
    obtain ⟨op, hop, hr, hi, -⟩ := decode_ok_cases hd
    exact ⟨op, hop, hr, hi⟩

theorem exists_decode_error_of_not_wellFormed (h : wellFormed w = false) : ∃ e, decode w = .error e := by
  cases hd : decode w with
  | ok i => simp [wellFormed_iff_decode.2 ⟨i, hd⟩] at h
  | error e => exact ⟨e, rfl⟩

theorem rsvField_toNat (w : Word) : (w >>> 16).toNat % 2 ^ 12 = (rsvField w).toNat := by
  simp [rsvField, BitVec.extractLsb'_toNat, BitVec.toNat_ushiftRight]

/-! ### Match and mask (30_encoding.md R85) -/

theorem word_eq_iff_fields (v w : Word) :
    v = w ↔ opField v = opField w ∧ rsvField v = rsvField w ∧ immField v = immField w := by
  constructor
  · rintro rfl
    exact ⟨rfl, rfl, rfl⟩
  · rintro ⟨ho, hr, hi⟩
    rw [← fields_append v, ← fields_append w, ho, hr, hi]

/-- A mask keeps OP and RSV whole, and of IMM the bits outside the operand. -/
theorem fields_maskWord (op : Op) :
    opField op.maskWord = BitVec.allOnes 4 ∧ rsvField op.maskWord = BitVec.allOnes 12 ∧
      immField op.maskWord = ~~~ op.format.imask := by cases op <;> decide

theorem fields_matchWord (op : Op) :
    opField op.matchWord = op.code ∧ rsvField op.matchWord = 0 ∧ immField op.matchWord = 0 := by
  cases op <;> decide

theorem fields_and_maskWord (w : Word) (op : Op) :
    opField (w &&& op.maskWord) = opField w ∧ rsvField (w &&& op.maskWord) = rsvField w ∧
      immField (w &&& op.maskWord) = immField w &&& ~~~ op.format.imask := by
  obtain ⟨ho, hr, hi⟩ := fields_maskWord op
  simp only [opField, rsvField, immField, BitVec.extractLsb'_and] at ho hr hi ⊢
  simp only [ho, hr, hi, BitVec.and_allOnes, and_self]

/-- (w & mask) = match compares OP, and asks that RSV and the rest of IMM are 0. -/
theorem and_maskWord_eq_matchWord_iff :
    w &&& op.maskWord = op.matchWord ↔
      opField w = op.code ∧ rsvField w = 0 ∧ immField w &&& ~~~ op.format.imask = 0 := by
  obtain ⟨ho, hr, hi⟩ := fields_and_maskWord w op
  obtain ⟨hto, htr, hti⟩ := fields_matchWord op
  rw [word_eq_iff_fields, ho, hr, hi, hto, htr, hti]

/-- The spec's table holds the match and the mask of each row's mnemonic. -/
theorem matchWord_maskWord_of_mem_opcodeMap :
    ∀ row ∈ Safety.opcodeMap, row.2.1 = row.1.matchWord ∧ row.2.2 = row.1.maskWord := by decide

end Sys2Proof
end

section
/-! The encoding statements (30_encoding.md R81 to R86). -/

namespace Sys2Proof.Proofs

open Sys2Proof.Safety

/-- The fields of every command's word, from the lemma of each constructor. -/
theorem wordShape (i : Instr) : Laws.WordShape.Statement i := by
  cases i with
  | nop => exact Laws.WordShape.nop
  | rst => exact Laws.WordShape.rst
  | eclr => exact Laws.WordShape.eclr
  | ebyte b => exact Laws.WordShape.ebyte b
  | efin => exact Laws.WordShape.efin
  | cksum => exact Laws.WordShape.cksum
  | merge => exact Laws.WordShape.merge
  | rdchk k => exact Laws.WordShape.rdchk k
  | setwl len => exact Laws.WordShape.setwl len
  | dchar c => exact Laws.WordShape.dchar c
  | dclr => exact Laws.WordShape.dclr
  | rdreg r => exact Laws.WordShape.rdreg r

/-- Settles O2: the word of a command passes the three checks, and its OP and IMM give the command back. -/
theorem decodeEncodeRoundTrip : Obligations.DecodeEncodeRoundTrip := by
  intro i
  obtain ⟨ho, hr, hi⟩ := wordShape i
  have hop : Op.ofCode (opField (encode i)) = some i.op := by rw [ho, Op.ofCode_code]
  rw [decode_of_fields hop hr hi, immField_encode, Instr.toInstr_op_imm]

/-- Settles O3: a decoded word is OP, RSV = 0 and IMM, and the command keeps all of OP and of IMM. -/
theorem encodeDecodeRoundTrip : Obligations.EncodeDecodeRoundTrip := by
  intro w i hd
  obtain ⟨op, hop, hr, hi, rfl⟩ := decode_ok_cases hd
  rw [encode, Op.op_toInstr, Op.imm_toInstr hi, Op.code_of_ofCode hop, ← hr, fields_append]

/-- Settles O6: the four outcomes of the three checks, taken in their order, are the decoder's four answers. -/
theorem decoderRejectsByName : Obligations.DecoderRejectsByName := by
  intro w
  cases ho : opcodeOk w with
  | false => simp [decode_of_not_opcodeOk ho]
  | true =>
    cases hr : rsvOk w with
    | false => simp [decode_of_not_rsvOk ho hr]
    | true =>
      cases hi : immOk w with
      | false => simp [decode_of_not_immOk ho hr hi]
      | true =>
        obtain ⟨i, hd⟩ := wellFormed_iff_decode.1 (wellFormed_iff_checks.2 ⟨ho, hr, hi⟩)
        simp [hd]

/-- The words that meet a mnemonic's match and mask are its commands' words: the mask holds every bit that the checks
look at. -/
theorem and_maskWord_eq_matchWord_iff_decode (w : Word) (op : Op) :
    w &&& op.maskWord = op.matchWord ↔ ∃ i, decode w = .ok i ∧ i.op = op := by
  rw [and_maskWord_eq_matchWord_iff]
  constructor
  · rintro ⟨ho, hr, hi⟩
    exact ⟨_, decode_of_fields (ho ▸ Op.ofCode_code op) hr hi, Op.op_toInstr ..⟩
  · rintro ⟨i, hd, rfl⟩
    obtain ⟨op, hop, hr, hi, rfl⟩ := decode_ok_cases hd
    rw [Op.op_toInstr]
    exact ⟨(Op.code_of_ofCode hop).symm, hr, hi⟩

/-- Settles O5: each row holds its mnemonic's match and mask; the reserved row's two bits make OP at least 0xC. -/
theorem opcodeMapSelectsCommand : Obligations.OpcodeMapSelectsCommand := by
  constructor
  · intro w _ row hrow
    obtain ⟨hmatch, hmask⟩ := matchWord_maskWord_of_mem_opcodeMap row hrow
    rw [hmatch, hmask]
    exact and_maskWord_eq_matchWord_iff_decode w row.1
  · intro w h
    have hfield : opField w &&& 0xC = 0xC := by
      have := congrArg opField h
      rwa [opField, BitVec.extractLsb'_and] at this
    have hnone : ∀ c : BitVec 4, c &&& 0xC = 0xC → Op.ofCode c = none := by decide
    simp [decode, hnone _ hfield]

end Sys2Proof.Proofs
end

section
/-! A step on a command word, by the dispatch rule, and what it answers (30_encoding.md R84, R87, R89). -/

namespace Sys2Proof.Proofs

open Sys2Proof.Machine Sys2Proof.Safety

variable {s t : State} {w : Word} {rest : List HostEvent}

/-! ### The four outcomes of the dispatch rule -/

theorem step_execute {i : Instr} (hs : s.inputs = .command w :: rest) (hd : decode w = .ok i)
    (h : s.flt.fault = false ∨ runsInFaultState i = true) : step s = exec i (accept rest s) := by
  rw [step_command hs, runWord, admission_execute (s := accept rest s) hd h]

theorem step_illegal (hs : s.inputs = .command w :: rest) (hw : wellFormed w = false) (hf : s.flt.fault = false) :
    step s = .next (raise .illegalCmd (accept rest s)) := by
  obtain ⟨e, hd⟩ := exists_decode_error_of_not_wellFormed hw
  rw [step_command hs, runWord, admission_illegal (s := accept rest s) hd hf]

theorem step_refuse (hs : s.inputs = .command w :: rest) (hf : s.flt.fault = true)
    (h : ∀ i, decode w = .ok i → runsInFaultState i = false) : step s = .next (refuse (accept rest s)) := by
  rw [step_command hs, runWord, admission_refuse (s := accept rest s) hf h]

theorem step_refuse_of_not_wellFormed (hs : s.inputs = .command w :: rest) (hf : s.flt.fault = true)
    (hw : wellFormed w = false) : step s = .next (refuse (accept rest s)) := by
  obtain ⟨e, hd⟩ := exists_decode_error_of_not_wellFormed hw
  exact step_refuse hs hf (by simp [hd])

/-- Settles O4: the three checks as numbers, as the decoder's fields, and as the two ways in which a step turns an
ill-formed word away. -/
theorem wellFormedWordsSpellCommands : Obligations.WellFormedWordsSpellCommands := by
  intro w
  refine ⟨?checks, wellFormed_iff_decode, fun hw s rest hs => ⟨?illegal, ?refused⟩⟩
  case checks =>
    have hrsv : rsvOk w = true ↔ (w >>> 16).toNat % 2 ^ 12 = 0 := by
      rw [rsvOk_iff, rsvField_toNat, BitVec.toNat_eq]; rfl
    rw [wellFormed_iff_checks, hrsv, opcodeOk, immOk, decide_eq_true_iff, beq_iff_eq]
  case illegal => exact step_illegal hs hw
  case refused => exact fun hf => step_refuse_of_not_wellFormed hs hf hw

/-- Settles O10: the gate of the fault state lets NOP, RST and RDREG through, and with no fault pending the decoder
alone decides. -/
theorem stepFollowsDispatchRule : Obligations.StepFollowsDispatchRule := by
  intro s w rest hs
  refine ⟨?admitted, ?refused, ?illegal, ?executed⟩
  case admitted =>
    intro _ _ i hd hi
    exact step_execute hs hd (.inr ((runsInFaultState_iff i).2 hi))
  case refused =>
    intro hf h
    refine step_refuse hs hf fun i hd => ?_
    simpa [← runsInFaultState_iff] using h i hd
  case illegal => exact fun hf hw => step_illegal hs hw hf
  case executed =>
    intro hf hw
    obtain ⟨i, hd⟩ := wellFormed_iff_decode.1 hw
    exact ⟨i, hd, step_execute hs hd (.inl hf)⟩

/-- Settles O9: with no fault pending the gate admits every command, and `accept` takes the event and empties the
response port. -/
theorem stepRunsDecodedCommand : Obligations.StepRunsDecodedCommand := by
  intro s w rest i hs hd hf
  exact step_execute hs hd (.inl hf)

/-! ### The response -/

/-- A command's only word is its encoding (30_encoding.md R85, R86). -/
theorem eq_encode_of_decode {i : Instr} (hd : decode w = .ok i) : w = encode i :=
  (encodeDecodeRoundTrip w i hd).symm

/-- Settles O13: a command enters a fault, answers with the fault elements as they are, or is RST; ILLEGAL_CMD is a
fault too, and a refusal shows the FCAUSE that stands. -/
theorem oneResponsePerCommand : Obligations.OneResponsePerCommand := by
  intro s t w rest hs h
  rw [step_command hs] at h
  obtain ⟨i, hd, -, hx⟩ | ⟨-, -, rfl⟩ | ⟨hf, -, rfl⟩ := runWord_cases h
  · obtain ⟨c, rfl⟩ | ⟨rfl, rfl⟩ | ⟨e, d, data, rfl⟩ := exec_shape hx
    · exact ⟨_, rfl, fun _ => ⟨rfl, BitVec.toNat_setWidth_of_le (by decide)⟩, nofun, fun _ => iff_of_true rfl rfl⟩
    · exact ⟨_, rfl, nofun, fun _ => .inr (eq_encode_of_decode hd), fun _ => iff_of_false nofun nofun⟩
    · exact ⟨_, rfl, nofun, fun _ => .inl rfl, fun hf => iff_of_false nofun (by simp [hf])⟩
  · exact ⟨_, rfl, fun _ => ⟨rfl, BitVec.toNat_setWidth_of_le (by decide)⟩, nofun, fun _ => iff_of_true rfl rfl⟩
  · exact ⟨_, rfl, fun _ => ⟨hf, BitVec.toNat_setWidth_of_le (by decide)⟩, nofun, fun _ => iff_of_true rfl hf⟩

end Sys2Proof.Proofs
end

section
/-! The assembler: numbers in fields, and the pseudo-commands (30_encoding.md R90, R91). -/

namespace Sys2Proof.Asm

/-! ### Numbers in fields -/

@[simp] theorem fit_toNat {n : Nat} (x : BitVec n) : fit n x.toNat = .ok x := by
  simp [fit, x.isLt]

theorem fit_of_le {n v : Nat} (h : 2 ^ n ≤ v) : fit n v = .error .outOfRange := if_neg h.not_gt

theorem map_fit_of_le {n v : Nat} (f : BitVec n → Instr) (h : 2 ^ n ≤ v) : (fit n v).map f = .error .outOfRange :=
  congrArg (Except.map f) (fit_of_le h)

theorem toNat_of_fit {n v : Nat} {x : BitVec n} (h : fit n v = .ok x) : x.toNat = v := by
  by_cases hv : v < 2 ^ n
  · rw [fit, if_pos hv] at h
    cases h
    rw [BitVec.toNat_ofNat, Nat.mod_eq_of_lt hv]
  · rw [fit_of_le (Nat.le_of_not_lt hv)] at h
    cases h

/-- A field of at most 16 bits carries its number into IMM. -/
theorem toNat_imm_of_fit {n v : Nat} {x : BitVec n} (hn : n ≤ 16) (h : fit n v = .ok x) :
    (x.setWidth 16).toNat = v := by
  rw [BitVec.toNat_setWidth_of_le hn, toNat_of_fit h]

/-- A command that assembles was made from an operand that assembles. -/
theorem exists_of_map_eq_ok {α β : Type} {x : Except AsmError α} {f : α → β} {b : β} (h : x.map f = .ok b) :
    ∃ a, x = .ok a ∧ f a = b := by
  cases x with
  | ok a => exact ⟨a, rfl, Except.ok.inj h⟩
  | error e => cases h

/-! ### EBYTES -/

theorem byteOperand_of_byte {a : Operand} {b : Byte} (h : a = .chr b ∨ a = .num b.toNat) : byteOperand a = .ok b := by
  obtain rfl | rfl := h
  · rfl
  · exact fit_toNat b

/-- EBYTES is one EBYTE for each operand, in order. -/
theorem assembleLine_ebytes {args : List Operand} (h : args ≠ []) :
    assembleLine (.ebytes args) = args.mapM fun x => (byteOperand x).map .ebyte := by
  cases args with
  | nil => exact absurd rfl h
  | cons a as => rfl

theorem mapM_ebyte_of_bytes {bs : List Byte} {args : List Operand}
    (h : List.Forall₂ (fun b a => a = .chr b ∨ a = .num b.toNat) bs args) :
    args.mapM (fun x => (byteOperand x).map Instr.ebyte) = .ok (bs.map .ebyte) := by
  induction h with
  | nil => rfl
  | cons hb _ ih =>
    rw [List.mapM_cons, ih, byteOperand_of_byte hb]
    rfl

/-- The first number that is no byte ends the line, when bytes stand before it. -/
theorem mapM_ebyte_of_large {before : List Operand} (hb : ∀ a ∈ before, ∃ b : Byte, a = .chr b ∨ a = .num b.toNat)
    {v : Nat} (hv : 256 ≤ v) (after : List Operand) :
    (before ++ .num v :: after).mapM (fun x => (byteOperand x).map Instr.ebyte) = .error .outOfRange := by
  induction before with
  | nil =>
    have hlarge : (byteOperand (.num v)).map Instr.ebyte = .error .outOfRange := map_fit_of_le _ hv
    rw [List.nil_append, List.mapM_cons, hlarge]
    rfl
  | cons a as ih =>
    obtain ⟨⟨b, ha⟩, has⟩ := List.forall_mem_cons.1 hb
    rw [List.cons_append, List.mapM_cons, byteOperand_of_byte ha, ih has]
    rfl

end Sys2Proof.Asm
end

section
/-! The assembler's statements (30_encoding.md R90 to R92). -/

namespace Sys2Proof.Proofs

open Sys2Proof.Asm

/-- Settles O7: EBYTES by induction over its operands; the other expansions, and the lines of source text, hold no
variable that the assembler looks at. -/
theorem pseudoCommandsExpand : Obligations.PseudoCommandsExpand := by
  refine ⟨?bytes, ?large, fun _ => rfl, rfl, rfl, rfl, rfl, rfl, rfl⟩
  case bytes =>
    intro bs args hne h
    have hargs : args ≠ [] := by
      rintro rfl
      exact hne (List.forall₂_nil_right_iff.1 h)
    rw [assembleLine_ebytes hargs, mapM_ebyte_of_bytes h]
  case large =>
    intro before after v hb hv
    rw [assembleLine_ebytes (by simp), mapM_ebyte_of_large hb hv]

/-- Settles O8: only the five mnemonics with a field take a number, and each sends it through `fit`, which keeps the
number or is an error. -/
theorem assemblerNeverTruncates : Obligations.AssemblerNeverTruncates := by
  refine ⟨fun op v i h => ?kept, fun v => ⟨fun hv => ⟨?ebyte, ?dchar⟩, ?rdchk, ?rdreg, ?setwl⟩⟩
  case kept =>
    cases op with
    | ebyte | dchar | rdchk | setwl =>
      obtain ⟨x, hx, rfl⟩ := exists_of_map_eq_ok h
      exact ⟨rfl, toNat_imm_of_fit (by decide) hx⟩
    | rdreg =>
      obtain ⟨x, hx, rfl⟩ := exists_of_map_eq_ok h
      refine ⟨rfl, ?_⟩
      rw [Instr.imm, Reg.number_ofNumber]
      exact toNat_imm_of_fit (by decide) hx
    | nop | rst | eclr | efin | cksum | merge | dclr => cases h
  case ebyte => exact map_fit_of_le Instr.ebyte hv
  case dchar => exact map_fit_of_le Instr.dchar hv
  case rdchk => exact map_fit_of_le Instr.rdchk
  case rdreg => exact map_fit_of_le fun r => Instr.rdreg (Reg.ofNumber r)
  case setwl => exact map_fit_of_le Instr.setwl

/-- Settles O1: the eight rows of the table, each a closed line of text and a closed word. -/
theorem workedEncodings : Obligations.WorkedEncodings :=
  ⟨rfl, rfl, rfl, rfl, rfl, rfl, rfl, rfl, rfl, rfl, rfl, rfl, rfl, rfl, rfl, rfl⟩

end Sys2Proof.Proofs
end

section
/-! CKSUM case by case, the message and the digest at the hash port, and the entries of EBUF and CHUNK that a store leaves
alone (20_memory.md R64, 40_checksum.md R110). -/

namespace Sys2Proof.Machine

variable {s t : State} {e e' : EntropyPath}

/-! ### CKSUM -/

theorem exec_cksum_of_not_due (h : s.ent.fin = false ∨ s.ent.csv = true) :
    exec .cksum s = .next (raise .sequence s) := by
  refine if_pos ?_
  obtain h | h := h <;> simp [checksumDue, h]

theorem exec_cksum_of_invalid_elen (hf : s.ent.fin = true) (hc : s.ent.csv = false)
    (hv : validEntropyLen s.ent.elen.toNat = false) : exec .cksum s = .next (raise .badEntropyLen s) := by
  rw [exec, execCksum, if_neg (by simp [checksumDue, hf, hc]), if_pos (by simp [hv])]

theorem exec_cksum_of_message (hf : s.ent.fin = true) (hc : s.ent.csv = false)
    (hv : validEntropyLen s.ent.elen.toNat = true) {m : List Byte} (hm : message s.ent = some m) :
    exec .cksum s = .next
      (respond false
        (cksumData (recordDigest (hashDigest s.hashUnit m) s.ent).csbits
          (recordDigest (hashDigest s.hashUnit m) s.ent).cs)
        (s.setEnt (recordDigest (hashDigest s.hashUnit m) s.ent))) := by
  rw [exec, execCksum, if_neg (by simp [checksumDue, hf, hc]), if_neg (by simp [hv]), hm]

/-- A CKSUM that does not fault has recorded the digest of the message. -/
theorem ent_of_exec_cksum_ok (h : exec .cksum s = .next t) (hok : t.flt.fault = false) :
    ∃ m, message s.ent = some m ∧ t.ent = recordDigest (hashDigest s.hashUnit m) s.ent := by
  obtain ⟨-, rfl⟩ | ⟨-, -, -, rfl⟩ | ⟨-, -, -, m, hm, rfl⟩ := execCksum_cases h
  · cases hok
  · cases hok
  · exact ⟨m, hm, rfl⟩

/-! ### The hash port and the response -/

/-- The message is read off EBUF and ELEN alone (40_checksum.md R112). -/
theorem message_congr (hebuf : e.ebuf = e'.ebuf) (helen : e.elen = e'.elen) : message e = message e' := by
  have hread : readEbuf e = readEbuf e' := by funext i; rw [readEbuf, readEbuf, hebuf]
  rw [message, message, hread, helen]

theorem toNat_digestMsb (d : Digest) : (digestMsb d).toNat = d.toNat / 2 ^ 248 := by
  have hd : d.toNat / 2 ^ 248 < 2 ^ 8 := by rw [Nat.div_lt_iff_lt_mul (Nat.two_pow_pos _)]; exact d.isLt
  rw [digestMsb, BitVec.extractLsb'_toNat, Nat.shiftRight_eq_div_pow, Nat.mod_eq_of_lt hd]

/-- CSBITS stands in bits 11 to 8 of the response and CS in bits 7 to 0 (30_encoding.md R89). -/
theorem cksumData_eq (n : BitVec 4) (cs : Byte) :
    cksumData n cs = n.setWidth 16 <<< 8 ||| cs.setWidth 16 := by
  have hn := n.isLt
  have hcs := cs.isLt
  have hshift : n.toNat <<< 8 < 65536 := by rw [Nat.shiftLeft_eq]; omega
  apply BitVec.eq_of_toNat_eq
  rw [cksumData, BitVec.toNat_append, BitVec.toNat_append]
  simp (disch := omega) [Nat.mod_eq_of_lt]

/-! ### Entries that a store leaves alone -/

theorem readEbuf_of_set_of_ne {i j : Nat} (hi : i < 32) {b : Byte} (h : e'.ebuf = e.ebuf.set i (some b) hi)
    (hj : j ≠ i) : readEbuf e' j = readEbuf e j := by
  rw [readEbuf, h, readEbuf_set hi, if_neg hj]

theorem readChunk_of_set_of_ne {i j : Nat} (hi : i < 24) {v : Chunk} (h : e'.chunk = e.chunk.set i (some v) hi)
    (hj : j ≠ i) : readChunk e' j = readChunk e j := by
  rw [readChunk, h, readChunk_set hi, if_neg hj]

end Sys2Proof.Machine
end

section
/-! The checksum and the frame of the entropy-path commands (40_checksum.md R110 to R112, 42_entropy_mapper.md R130). -/

namespace Sys2Proof.Proofs

open Sys2Proof.Machine Sys2Proof.Safety

variable {s t : State}

/-! ### The shape of an entropy-path command -/

/-- An entropy-path command enters a fault, or responds with new elements of its own path. -/
theorem exec_entropy_shape {i : Instr} (hi : isEntropyCommand i = true) (h : exec i s = .next t) :
    (∃ c, t = raise c s) ∨ ∃ e data, t = respond false data (s.setEnt e) := by
  cases i with
  | eclr => exact .inr ⟨_, _, execEclr_cases h⟩
  | ebyte b =>
    obtain ⟨-, h⟩ | ⟨-, -, h⟩ | ⟨-, -, e, done, -, h⟩ := execEbyte_cases h
    · exact .inl ⟨_, h⟩
    · exact .inl ⟨_, h⟩
    · exact .inr ⟨_, _, h⟩
  | efin =>
    obtain ⟨-, h⟩ | ⟨-, e, p, -, h⟩ := execEfin_cases h
    · exact .inl ⟨_, h⟩
    · exact .inr ⟨_, _, h⟩
  | cksum =>
    obtain ⟨-, h⟩ | ⟨-, -, -, h⟩ | ⟨-, -, -, m, -, h⟩ := execCksum_cases h
    · exact .inl ⟨_, h⟩
    · exact .inl ⟨_, h⟩
    · exact .inr ⟨_, _, h⟩
  | merge =>
    obtain ⟨-, h⟩ | ⟨-, -, -, h⟩ | ⟨-, -, -, e, v, -, h⟩ := execMerge_cases h
    · exact .inl ⟨_, h⟩
    · exact .inl ⟨_, h⟩
    · exact .inr ⟨_, _, h⟩
  | rdchk k =>
    obtain ⟨-, h⟩ | ⟨-, v, -, h⟩ := execRdchk_cases h
    · exact .inl ⟨_, h⟩
    · exact .inr ⟨s.ent, _, h⟩
  | nop | rst | setwl | dchar | dclr | rdreg => cases hi

/-! ### The statements -/

/-- Settles O27: the two faults come before the message is read, and the elements recorded are those of
`recordDigest`, whose CSBITS is at most 8. -/
theorem cksumTakesChecksum : Obligations.CksumTakesChecksum := by
  refine ⟨rfl, fun s => ⟨exec_cksum_of_not_due, fun hf hc hv => ?invalid, fun m hf hc hv hlen hget => ?valid⟩⟩
  case invalid =>
    rw [← validEntropyLen_iff, Bool.not_eq_true] at hv
    exact exec_cksum_of_invalid_elen hf hc hv
  case valid =>
    have hm : message s.ent = some m := (message_eq_some_iff _ _).2 ⟨hlen, hget⟩
    obtain ⟨-, hcount8⟩ := checksumCount_eq_leftover hv
    have hn : (recordDigest (hashDigest s.hashUnit m) s.ent).csbits.toNat = checksumCount s.ent.elen.toNat := by
      rw [recordDigest, BitVec.toNat_ofNat]; omega
    refine ⟨_, (recordDigest (hashDigest s.hashUnit m) s.ent).cs, _, toNat_digestMsb _, hn, ?_, ?_, ?_⟩
    · rw [hn]; exact checksumBits_toNat ..
    · rw [hn]; exact checksumBits_lt _ hcount8
    · exact cksumData_eq _ _ ▸ exec_cksum_of_message hf hc ((validEntropyLen_iff _).2 hv) hm

/-- Settles O35: a fault writes no element of the path, and otherwise each command's new elements are written out by the
lemma of its operation (`takeByte_cases`, `flushChunk_cases`, `recordDigest`, `mergeChecksum_cases`). -/
theorem entropyCommandsFrame : Obligations.EntropyCommandsFrame := by
  refine fun s t => ⟨fun i hi h => ?others, fun b h hn => ?ebyte, fun h => ?efin, fun h => ?cksum, fun h => ?merge⟩
  case others =>
    obtain ⟨c, rfl⟩ | ⟨e, data, rfl⟩ := exec_entropy_shape hi h
    · exact ⟨rfl, rfl, rfl, .inr ⟨c, rfl⟩⟩
    · exact ⟨rfl, rfl, rfl, .inl rfl⟩
  case ebyte =>
    obtain ⟨-, rfl⟩ | ⟨-, -, rfl⟩ | ⟨-, -, e, done, ht, rfl⟩ := execEbyte_cases h
    · simp
    · simp
    obtain ⟨he, ⟨-, -, rfl⟩ | ⟨-, hc, v, a, -, -, -, rfl⟩⟩ := takeByte_cases hn ht
    · exact ⟨rfl, rfl, rfl, rfl, rfl, rfl, rfl, fun j => readEbuf_of_set_of_ne he rfl, fun _ _ => rfl, fun _ => rfl⟩
    · have hemit : s.ent.nchunk + 1 ≠ s.ent.nchunk := by simp
      exact ⟨rfl, rfl, rfl, rfl, rfl, rfl, rfl, fun j => readEbuf_of_set_of_ne he rfl,
        fun j => readChunk_of_set_of_ne hc rfl, fun hsame => absurd hsame hemit⟩
  case efin =>
    obtain ⟨-, rfl⟩ | ⟨-, e, p, ht, rfl⟩ := execEfin_cases h
    · simp
    obtain ⟨-, -, rfl⟩ | ⟨hneed, -, hc, rfl⟩ := flushChunk_cases ht
    · exact ⟨rfl, rfl, rfl, rfl, rfl, rfl, rfl, fun _ _ => rfl, fun _ => ⟨rfl, rfl⟩⟩
    · exact ⟨rfl, rfl, rfl, rfl, rfl, rfl, rfl, fun j => readChunk_of_set_of_ne hc rfl, fun h11 => absurd h11 hneed⟩
  case cksum =>
    obtain ⟨-, rfl⟩ | ⟨-, -, -, rfl⟩ | ⟨-, -, -, m, -, rfl⟩ := execCksum_cases h
    · simp
    · simp
    · exact ⟨rfl, rfl, rfl, rfl, rfl, rfl, rfl, rfl, rfl⟩
  case merge =>
    obtain ⟨-, rfl⟩ | ⟨-, -, -, rfl⟩ | ⟨-, -, -, e, v, ht, rfl⟩ := execMerge_cases h
    · simp
    · simp
    obtain ⟨-, hc, u, -, -, rfl⟩ := mergeChecksum_cases ht
    exact ⟨rfl, rfl, rfl, rfl, rfl, rfl, rfl, rfl, rfl, rfl, rfl, fun j => readChunk_of_set_of_ne hc rfl⟩

/-- Settles O41: for a valid ELEN after EFIN, ELEN div 4 is the number of bits left over
(`checksumCount_eq_leftover`, within `EntropyInv.recordDigest`), and MERGE runs only with CSV = 1, where CSBITS and LEFT
still agree. -/
theorem checksumCountEqualsLeft : Obligations.ChecksumCountEqualsLeft := by
  refine fun s t hs => ⟨fun hc h hc' => ?cksum, fun h hok => ?merge⟩
  case cksum =>
    obtain ⟨-, rfl⟩ | ⟨-, -, -, rfl⟩ | ⟨hf, -, hv, m, -, rfl⟩ := execCksum_cases h
    · exact nomatch hc.symm.trans hc'
    · exact nomatch hc.symm.trans hc'
    · obtain ⟨-, -, -, hleft, -⟩ := (hs.ent.recordDigest hf hv (hashDigest s.hashUnit m)).summed rfl
      exact hleft
  case merge =>
    obtain ⟨-, rfl⟩ | ⟨hc, -, hne, rfl⟩ | ⟨-, -, -, e, v, -, rfl⟩ := execMerge_cases h
    · rw [raise_flt]; decide
    · obtain ⟨-, -, -, hleft, -⟩ := hs.ent.summed hc
      exact absurd hleft.symm hne
    · have hzero : s.flt.fcause = 0 := hs.flt.zero_iff.2 hok
      rw [respond_flt, State.setEnt_flt, hzero]
      decide

/-- Settles O44: both CKSUMs hash one message, with one function, and shift its first byte by one ELEN. -/
theorem checksumIsFunctionOfEntropy : Obligations.ChecksumIsFunctionOfEntropy := by
  intro s1 s2 t1 t2 hebuf helen hhash _ _ h1 h2 hok1 hok2
  obtain ⟨m1, hm1, ht1⟩ := ent_of_exec_cksum_ok h1 hok1
  obtain ⟨m2, hm2, ht2⟩ := ent_of_exec_cksum_ok h2 hok2
  obtain rfl : m1 = m2 := Option.some.inj (by rw [← hm1, ← hm2, message_congr hebuf helen])
  rw [ht1, ht2, recordDigest, recordDigest, hhash, helen]
  exact ⟨rfl, rfl⟩

end Sys2Proof.Proofs
end

section
/-! ECLR, EBYTE and EFIN case by case, with the layouts of their responses (41_chunker.md R119 to R121; 30_encoding.md
R89). -/

namespace Sys2Proof.Machine

variable {s : State} {e : EntropyPath} {b : Byte} {done : Option Chunk}

/-! ### The responses -/

/-- Bit 15 of EBYTE's response shows that a chunk stands in bits 10 to 0. -/
theorem ebyteData_some (v : Chunk) : ebyteData (some v) = 0x8000 ||| v.setWidth 16 := by
  have hbit : ((1 : BitVec 1) ++ (0 : BitVec 4)).setWidth 16 <<< 11 = (0x8000 : Half) := rfl
  rw [← hbit]
  exact (BitVec.setWidth_eq _).symm.trans BitVec.setWidth_append_eq_shiftLeft_setWidth_or

/-- NCHUNK stands in bits 8 to 4 of EFIN's response and LEFT in bits 3 to 0. -/
theorem efinData_eq (p : Bool) (n : BitVec 5) (k : BitVec 4) :
    efinData p n k =
      (BitVec.ofBool p ++ (0 : BitVec 6)).setWidth 16 <<< 9 ||| n.setWidth 16 <<< 4 ||| k.setWidth 16 := by
  calc efinData p n k
      = (BitVec.ofBool p ++ (0 : BitVec 6) ++ n).setWidth 16 <<< 4 ||| k.setWidth 16 :=
        (BitVec.setWidth_eq _).symm.trans BitVec.setWidth_append_eq_shiftLeft_setWidth_or
    _ = _ := by
      rw [BitVec.setWidth_append_eq_shiftLeft_setWidth_or, BitVec.shiftLeft_or_distrib, ← BitVec.shiftLeft_add]

/-- Bit 15 of EFIN's response shows that it emitted a chunk. -/
theorem efinData_true (n : BitVec 5) (k : BitVec 4) :
    efinData true n k = 0x8000 ||| n.setWidth 16 <<< 4 ||| k.setWidth 16 := efinData_eq true n k

theorem efinData_false_zero (n : BitVec 5) : efinData false n 0 = n.setWidth 16 <<< 4 := by
  rw [efinData_eq]
  simp

/-! ### The word of a command -/

/-- OP stands in bits 31 to 28 of a command's word and IMM in bits 15 to 0 (30_encoding.md R81). -/
theorem toNat_encode (i : Instr) : (encode i).toNat = i.op.code.toNat * 2 ^ 28 + i.imm.toNat := by
  rw [encode, BitVec.toNat_append, BitVec.toNat_append, ← Nat.shiftLeft_add_eq_or_of_lt i.imm.isLt]
  simp [Nat.shiftLeft_eq, Nat.mul_assoc]

theorem toNat_encode_ebyte (b : Byte) : (encode (.ebyte b)).toNat = 0x30000000 + b.toNat := by
  rw [toNat_encode, Instr.imm, BitVec.toNat_setWidth_of_le (by decide)]
  simp [Instr.op, Op.code]

/-! ### EBYTE -/

theorem exec_ebyte_of_fin (h : s.ent.fin = true) : exec (.ebyte b) s = .next (raise .sequence s) :=
  if_pos (by simp [chunkerOpen, h])

theorem exec_ebyte_of_full (hf : s.ent.fin = false) (he : s.ent.elen = 32) :
    exec (.ebyte b) s = .next (raise .entropyOverflow s) := by
  rw [exec, execEbyte, if_neg (by simp [chunkerOpen, hf]), if_pos he]

theorem exec_ebyte_of_takeByte (hf : s.ent.fin = false) (he : s.ent.elen.toNat < 32)
    (ht : takeByte b s.ent = some (e, done)) :
    exec (.ebyte b) s = .next (respond false (ebyteData done) (s.setEnt e)) := by
  have hne : s.ent.elen ≠ 32 := by rintro h; simp [h] at he
  rw [exec, execEbyte, if_neg (by simp [chunkerOpen, hf]), if_neg hne, ht]

/-- A chunk of ACC and the byte's first NEED bits loses no bit (41_chunker.md R125). -/
theorem emitted_chunk_lt (b : Byte) (h8 : e.need.toNat ≤ 8) (ha : e.acc.toNat < 2 ^ (11 - e.need.toNat)) :
    e.acc.toNat * 2 ^ e.need.toNat + b.toNat / 2 ^ (8 - e.need.toNat) < 2 ^ 11 := by
  have hb : b.toNat / 2 ^ (8 - e.need.toNat) < 2 ^ e.need.toNat := by
    rw [Nat.div_lt_iff_lt_mul (Nat.two_pow_pos _), ← Nat.pow_add, Nat.add_sub_cancel' h8]
    exact b.isLt
  have hacc := takeBits_acc_of_lt (b := b) (rem := 8) (Nat.le_refl _) (by omega) ha
  rw [Nat.mod_eq_of_lt hb] at hacc
  exact hacc ▸ (takeBits b 8 e.need.toNat e).acc.isLt

/-- Counting 8 bits off NEED, as an element of 4 bits. -/
theorem ofNat_toNat_sub_eight {n : BitVec 4} (h : 8 < n.toNat) : BitVec.ofNat 4 (n.toNat - 8) = n - 8 := by
  bv_omega

/-! ### EFIN -/

theorem exec_efin_of_flushChunk {p : Bool} (hf : s.ent.fin = false) (ht : flushChunk s.ent = some (e, p)) :
    exec .efin s = .next (respond false (efinData p e.nchunk e.left) (s.setEnt e)) := by
  rw [exec, execEfin, if_neg (by simp [chunkerOpen, hf]), ht]

theorem flushChunk_of_eq (h : e.need = 11) :
    flushChunk e = some ({ e with left := 0, acc := 0, need := 11, fin := true }, false) := if_pos h

theorem flushChunk_of_ne (h : e.need ≠ 11) (hc : e.nchunk.toNat < 24) :
    flushChunk e = some
      ({ e with
          chunk := e.chunk.set e.nchunk.toNat (some (BitVec.ofNat 11 (e.acc.toNat <<< e.need.toNat))) hc
          nchunk := e.nchunk + 1, left := e.need, acc := 0, need := 11, fin := true }, true) := by
  rw [flushChunk, if_neg h, emitChunk_of_lt hc]

/-- The chunk that EFIN emits is ACC followed by NEED zero bits, and ACC loses no bit. -/
theorem toNat_flushed_chunk {acc n : Nat} (hn : n ≤ 11) (ha : acc < 2 ^ (11 - n)) :
    (BitVec.ofNat 11 (acc <<< n)).toNat = acc * 2 ^ n := by
  rw [BitVec.toNat_ofNat, Nat.shiftLeft_eq, Nat.mod_eq_of_lt]
  calc acc * 2 ^ n < 2 ^ (11 - n) * 2 ^ n := Nat.mul_lt_mul_of_pos_right ha (Nat.two_pow_pos n)
    _ = 2 ^ 11 := by rw [← Nat.pow_add, Nat.sub_add_cancel hn]

end Sys2Proof.Machine
end

section
/-! What ECLR, EBYTE and EFIN do (41_chunker.md R119 to R121). -/

namespace Sys2Proof.Proofs

open Sys2Proof.Machine Sys2Proof.Safety

/-- Settles O24: ECLR has one case, and the reset values of the path are literals. -/
theorem eclrClearsEntropyPath : Obligations.EclrClearsEntropyPath := ⟨rfl, fun _ => rfl⟩

/-- Settles O25: the two faults come first; with NEED > 8 the byte takes one round that emits nothing
(`takeByte_of_gt`), and with NEED ≤ 8 it completes one chunk (`takeByte_of_le`); the bound of ACC says that neither
loses a bit. -/
theorem ebyteTakesByte : Obligations.EbyteTakesByte := by
  intro s b
  refine ⟨toNat_encode_ebyte b, exec_ebyte_of_fin, exec_ebyte_of_full, fun he hf h8 h11 ha => ?keep,
    fun he hc hf h1 h8 ha => ?emit⟩
  case keep =>
    have hacc := takeBits_acc_of_lt (b := b) (rem := 8) (Nat.le_of_lt h8) h11 ha
    rw [Nat.sub_self, Nat.pow_zero, Nat.div_one, Nat.mod_eq_of_lt b.isLt] at hacc
    refine ⟨_, hacc, ?_⟩
    rw [exec_ebyte_of_takeByte hf he (takeByte_of_gt he h8 b), ← ofNat_toNat_sub_eight h8]
    rfl
  case emit =>
    obtain ⟨v, a, hv, ha', ht⟩ := takeByte_of_le he hc h1 h8 b
    rw [Nat.mod_eq_of_lt (emitted_chunk_lt b h8 ha)] at hv
    refine ⟨v, a, hv, ha', ?_⟩
    rw [exec_ebyte_of_takeByte hf he ht, ebyteData_some]
    rfl

/-- Settles O26: the fault comes first; NEED = 11 is a chunker with no bit pending, and otherwise the bits pending are
flushed, which the bound of ACC keeps whole. -/
theorem efinFlushesChunker : Obligations.EfinFlushesChunker := by
  refine ⟨rfl, fun s => ⟨exec_efin_of_fin, fun hf hn => ?whole, fun hc hf hn ha => ?pending⟩⟩
  case whole =>
    rw [exec_efin_of_flushChunk hf (flushChunk_of_eq hn), efinData_false_zero]
    rfl
  case pending =>
    have hne : s.ent.need ≠ 11 := by rintro h; simp [h] at hn
    refine ⟨_, toNat_flushed_chunk (Nat.le_succ_of_le hn) ha, ?_⟩
    rw [exec_efin_of_flushChunk hf (flushChunk_of_ne hne hc), efinData_true]
    rfl

end Sys2Proof.Proofs
end

section
/-! The phases of the entropy path and the flags that show them (41_chunker.md R122). -/

namespace Sys2Proof.Safety

open Sys2Proof.Machine

variable {e : EntropyPath}

/-- The flags are set in one order, FIN then CSV then MRG, so each phase is one combination of them. -/
theorem EntropyInv.phase_cases (h : EntropyInv e) :
    (phase e = .filling ∧ e.fin = false ∧ e.csv = false ∧ e.mrg = false) ∨
    (phase e = .finished ∧ e.fin = true ∧ e.csv = false ∧ e.mrg = false) ∨
    (phase e = .summed ∧ e.fin = true ∧ e.csv = true ∧ e.mrg = false) ∨
    (phase e = .merged ∧ e.fin = true ∧ e.csv = true ∧ e.mrg = true) := by
  cases hf : e.fin with
  | false =>
    obtain ⟨hc, hm⟩ := h.unsummed_of_open hf
    simp [phase, hf, hc, hm]
  | true =>
    cases hm : e.mrg with
    | true => simp [phase, hm, h.merged hm]
    | false => cases hc : e.csv <;> simp [phase, hf, hc, hm]

/-- EBYTE and EFIN are out of phase once FIN is set. -/
theorem EntropyInv.outOfPhase_chunker_iff (h : EntropyInv e) {i : Instr} (hi : (∃ b, i = .ebyte b) ∨ i = .efin) :
    outOfPhase (phase e) i = true ↔ e.fin = true := by
  obtain ⟨b, rfl⟩ | rfl := hi <;>
    obtain ⟨hp, hf, -⟩ | ⟨hp, hf, -⟩ | ⟨hp, hf, -⟩ | ⟨hp, hf, -⟩ := h.phase_cases <;> simp [hp, hf, outOfPhase]

/-- CKSUM is in phase between EFIN and CKSUM. -/
theorem EntropyInv.outOfPhase_cksum_iff (h : EntropyInv e) :
    outOfPhase (phase e) .cksum = true ↔ e.fin = false ∨ e.csv = true := by
  obtain ⟨hp, hf, hc, -⟩ | ⟨hp, hf, hc, -⟩ | ⟨hp, hf, hc, -⟩ | ⟨hp, hf, hc, -⟩ := h.phase_cases <;>
    simp [hp, hf, hc, outOfPhase]

/-- MERGE is in phase between CKSUM and MERGE. -/
theorem EntropyInv.outOfPhase_merge_iff (h : EntropyInv e) :
    outOfPhase (phase e) .merge = true ↔ e.csv = false ∨ e.mrg = true := by
  obtain ⟨hp, -, hc, hm⟩ | ⟨hp, -, hc, hm⟩ | ⟨hp, -, hc, hm⟩ | ⟨hp, -, hc, hm⟩ := h.phase_cases <;>
    simp [hp, hc, hm, outOfPhase]

/-- ECLR is in phase always. -/
@[simp] theorem outOfPhase_eclr (p : Phase) : outOfPhase p .eclr = false := by cases p <;> rfl

/-- RDCHK is in phase always. -/
@[simp] theorem outOfPhase_rdchk (p : Phase) (k : BitVec 5) : outOfPhase p (.rdchk k) = false := by cases p <;> rfl

end Sys2Proof.Safety
end

section
/-! The phases gate the commands of the entropy path (41_chunker.md R122). -/

namespace Sys2Proof.Proofs

open Sys2Proof.Machine Sys2Proof.Safety

/-- Settles O42: in every command the check of the phase comes first; the other causes are not SEQUENCE, and a command
that answers leaves FCAUSE at 0. -/
theorem phasesGateCommands : Obligations.PhasesGateCommands := by
  refine ⟨fun s t i hs hok hi h => ?gate, fun s t h => ?first⟩
  case gate =>
    have hzero : s.flt.fcause ≠ Cause.code .sequence := by rw [hs.flt.zero_iff.2 hok]; decide
    cases i with
    | eclr =>
      obtain rfl := execEclr_cases h
      exact iff_of_false hzero (by simp)
    | ebyte b =>
      have hphase := hs.ent.outOfPhase_chunker_iff (.inl ⟨b, rfl⟩)
      obtain ⟨hf, rfl⟩ | ⟨hf, -, rfl⟩ | ⟨hf, -, e, done, -, rfl⟩ := execEbyte_cases h
      · exact iff_of_true rfl (hphase.2 hf)
      · exact iff_of_false (by simp [Cause.code]) (by simp [hphase, hf])
      · exact iff_of_false hzero (by simp [hphase, hf])
    | efin =>
      have hphase := hs.ent.outOfPhase_chunker_iff (.inr rfl)
      obtain ⟨hf, rfl⟩ | ⟨hf, e, p, -, rfl⟩ := execEfin_cases h
      · exact iff_of_true rfl (hphase.2 hf)
      · exact iff_of_false hzero (by simp [hphase, hf])
    | cksum =>
      have hphase := hs.ent.outOfPhase_cksum_iff
      obtain ⟨hf, rfl⟩ | ⟨hf, hc, -, rfl⟩ | ⟨hf, hc, -, m, -, rfl⟩ := execCksum_cases h
      · exact iff_of_true rfl (hphase.2 hf)
      · exact iff_of_false (by simp [Cause.code]) (by simp [hphase, hf, hc])
      · exact iff_of_false hzero (by simp [hphase, hf, hc])
    | merge =>
      have hphase := hs.ent.outOfPhase_merge_iff
      obtain ⟨hc, rfl⟩ | ⟨hc, hm, -, rfl⟩ | ⟨hc, hm, -, e, v, -, rfl⟩ := execMerge_cases h
      · exact iff_of_true rfl (hphase.2 hc)
      · exact iff_of_false (by simp [Cause.code]) (by simp [hphase, hc, hm])
      · exact iff_of_false hzero (by simp [hphase, hc, hm])
    | rdchk k =>
      obtain ⟨-, rfl⟩ | ⟨-, v, -, rfl⟩ := execRdchk_cases h
      · exact iff_of_false (by simp [Cause.code]) (by simp)
      · exact iff_of_false hzero (by simp)
    | nop | rst | setwl | dchar | dclr | rdreg => cases hi
  case first =>
    obtain h | h | rfl := h
    · obtain rfl := execEclr_cases h; rfl
    · obtain rfl := execRst_cases h; rfl
    · rfl

end Sys2Proof.Proofs
end

section
/-! Runs of the machine: a command that the host has sent, and a sequence of EBYTEs (41_chunker.md R123). -/

namespace Sys2Proof.Proofs

open Sys2Proof.Machine Sys2Proof.Safety

variable {s t : State} {rest : List HostEvent}

/-! ### Commands that the host has sent -/

theorem sends_append (is js : List Instr) : sends (is ++ js) = sends is ++ sends js := List.map_append

theorem steps_succ (h : step s = .next t) (n : Nat) : steps (n + 1) s = steps n t := by
  have hcore : Sys2Proof.core.step s = .next t := h
  simp only [steps, Host.Core.run, hcore]
  rfl

/-- A command that the host has sent runs on the state that accepted its word, when no fault is pending. -/
theorem step_sent {i : Instr} (hs : s.inputs = .command (encode i) :: rest) (hok : s.flt.fault = false) :
    step s = exec i (accept rest s) :=
  step_execute hs (decodeEncodeRoundTrip i) (.inl hok)

theorem steps_sent {i : Instr} (hs : s.inputs = .command (encode i) :: rest) (hok : s.flt.fault = false)
    (h : exec i (accept rest s) = .next t) (n : Nat) : steps (n + 1) s = steps n t :=
  steps_succ ((step_sent hs hok).trans h) n

/-! ### The chunker while it takes bytes -/

/-- The chunker is open and has taken the bytes m: its invariants hold, and m is what EBUF holds. -/
structure HasTaken (s : State) (m : List Byte) : Prop where
  unfinished : s.ent.fin = false
  inv : EntropyInv s.ent
  streams : StreamInv s
  message : message s.ent = some m

/-- A clear entropy path has taken no byte. -/
theorem hasTaken_nil_of_reset (h : s.ent = .reset) : HasTaken s [] where
  unfinished := by rw [h]; rfl
  inv := by rw [h]; exact EntropyInv.reset
  streams := streamInv_of_ent_reset h
  message := by rw [h]; rfl

theorem message_takeByte {e e' : EntropyPath} {m : List Byte} {b : Byte} {done : Option Chunk}
    (hm : message e = some m) (hn : 1 ≤ e.need.toNat) (ht : takeByte b e = some (e', done)) :
    message e' = some (m ++ [b]) := by
  obtain ⟨he, ⟨-, -, rfl⟩ | ⟨-, -, v, a, -, -, -, rfl⟩⟩ := takeByte_cases hn ht <;> exact message_concat hm he b

theorem fin_takeByte {e e' : EntropyPath} {b : Byte} {done : Option Chunk} (hn : 1 ≤ e.need.toNat)
    (ht : takeByte b e = some (e', done)) : e'.fin = e.fin := by
  obtain ⟨he, ⟨-, -, rfl⟩ | ⟨-, -, v, a, -, -, -, rfl⟩⟩ := takeByte_cases hn ht <;> rfl

namespace HasTaken

variable {m : List Byte}

theorem elen (h : HasTaken s m) : s.ent.elen.toNat = m.length := (length_of_message h.message).symm

theorem exec_ebyte (h : HasTaken s m) (hm : m.length < 32) (b : Byte) :
    ∃ e r, exec (.ebyte b) s = .next { s with ent := e, rsp := r } ∧
      HasTaken { s with ent := e, rsp := r } (m ++ [b]) := by
  have he : s.ent.elen.toNat < 32 := h.elen ▸ hm
  have hne : s.ent.elen ≠ 32 := by rintro h32; simp [h32] at he
  obtain ⟨⟨e, done⟩, ht⟩ := Option.isSome_iff_exists.1 (h.inv.isSome_takeByte h.unfinished hne b)
  refine ⟨e, _, exec_ebyte_of_takeByte h.unfinished he ht, ?_⟩
  exact {
    unfinished := (fin_takeByte h.inv.need_range.1 ht).trans h.unfinished
    inv := h.inv.takeByte h.unfinished ht
    streams := (h.streams.takeByte h.inv h.unfinished ht).of_same rfl rfl
    message := message_takeByte h.message h.inv.need_range.1 ht }

/-- Neither the host's events nor the response port is part of the chunker. -/
theorem accept (h : HasTaken s m) (rest : List HostEvent) : HasTaken (accept rest s) m :=
  ⟨h.unfinished, h.inv, h.streams.of_same rfl rfl, h.message⟩

/-- A run of EBYTEs takes the bytes in order, and then goes on with what the host sends next. -/
theorem steps_ebytes (bs : List Byte) (h : HasTaken s m) (hok : s.flt.fault = false)
    (hlen : m.length + bs.length ≤ 32) (hs : s.inputs = sends (bs.map .ebyte) ++ rest) :
    ∃ e r, (∀ n, steps (bs.length + n) s = steps n { s with ent := e, inputs := rest, rsp := r }) ∧
      HasTaken { s with ent := e, inputs := rest, rsp := r } (m ++ bs) := by
  induction bs generalizing s m with
  | nil =>
    obtain rfl : s.inputs = rest := hs
    refine ⟨s.ent, s.rsp, fun n => ?_, ?_⟩
    · rw [List.length_nil, Nat.zero_add]
    · rwa [List.append_nil]
  | cons b bs ih =>
    rw [List.length_cons] at hlen
    obtain ⟨e₁, r₁, hx, h₁⟩ := (h.accept (sends (bs.map .ebyte) ++ rest)).exec_ebyte (by omega) b
    obtain ⟨e, r, hrun, htaken⟩ := ih h₁ hok (by simp; omega) rfl
    refine ⟨e, r, fun n => ?_, ?_⟩
    · rw [List.length_cons, Nat.succ_add, steps_sent hs hok hx, hrun]
      rfl
    · rw [List.append_assoc] at htaken
      exact htaken

/-! ### The closed form (41_chunker.md R123) -/

theorem nchunk (h : HasTaken s m) : s.ent.nchunk.toNat = 8 * m.length / 11 :=
  h.elen ▸ (h.inv.unfinished h.unfinished).1

theorem need (h : HasTaken s m) : s.ent.need.toNat = 11 - 8 * m.length % 11 :=
  h.elen ▸ (h.inv.unfinished h.unfinished).2.1

theorem acc (h : HasTaken s m) :
    s.ent.acc.toNat = bitsValue ((streamBits m).drop (8 * m.length - 8 * m.length % 11)) := by
  have hstart : 8 * m.length - 8 * m.length % 11 = 11 * s.ent.nchunk.toNat := by rw [h.nchunk]; omega
  rw [hstart, h.streams.pending m h.message h.unfinished]

theorem readChunk_of_lt (h : HasTaken s m) {j : Nat} (hj : j < s.ent.nchunk.toNat) :
    readChunk s.ent j = some (chunkAt (streamBits m) j) := by
  simpa using h.streams.readChunk_of_open h.inv h.unfinished h.message [] hj

/-- EFIN after the bytes m: LEFT, and the last chunk if there are bits pending. -/
theorem exec_efin (h : HasTaken s m) (hm : m.length ≤ 32) :
    ∃ e r, exec .efin s = .next { s with ent := e, rsp := r } ∧
      e.left.toNat = (11 - 8 * m.length % 11) % 11 ∧
      (8 * m.length % 11 ≠ 0 → ∃ v : Chunk, readChunk e (8 * m.length / 11) = some v ∧
        v.toNat = bitsValue ((streamBits m).drop (8 * m.length - 8 * m.length % 11)) *
          2 ^ (11 - 8 * m.length % 11)) := by
  obtain ⟨-, hefin⟩ := efinFlushesChunker
  obtain ⟨-, hwhole, hpending⟩ := hefin s
  have hneed := h.need
  have hnchunk := h.nchunk
  by_cases hn : s.ent.need = 11
  · have hn' : s.ent.need.toNat = 11 := by simp [hn]
    exact ⟨_, _, hwhole h.unfinished hn, by simp; omega, fun hrest => by omega⟩
  · have hn' : s.ent.need.toNat ≠ 11 := BitVec.toNat_ne_iff_ne.2 hn
    have hc : s.ent.nchunk.toNat < 24 := by omega
    obtain ⟨v, hv, hx⟩ := hpending hc h.unfinished (by omega) h.inv.acc_lt
    refine ⟨_, _, hx, by simp only; omega, fun _ => ⟨v, ?_, ?_⟩⟩
    · exact (readChunk_set hc s.ent v _).trans (if_pos hnchunk.symm)
    · rw [hv, h.acc, hneed]

end HasTaken

/-- Settles O46: the run of EBYTEs keeps the invariants of the open chunker, which hold the closed form, and EFIN
flushes what they say is pending. -/
theorem chunkerClosedForm : Obligations.ChunkerClosedForm := by
  intro s bs rest hent hok hlen
  have hclear : HasTaken s [] := hasTaken_nil_of_reset hent
  have hroom : ([] : List Byte).length + bs.length ≤ 32 := by simpa using hlen
  refine ⟨fun hs => ?bytes, fun hs => ?efin⟩
  case bytes =>
    obtain ⟨e, r, hrun, (h : HasTaken _ bs)⟩ := hclear.steps_ebytes bs hok hroom hs
    exact ⟨_, hrun 0, h.elen, h.nchunk, fun j => h.readChunk_of_lt, h.need, h.acc, rfl, rfl, rfl⟩
  case efin =>
    rw [sends_append, List.append_assoc] at hs
    obtain ⟨e, r, hrun, (h : HasTaken _ bs)⟩ := hclear.steps_ebytes bs hok hroom hs
    obtain ⟨e', r', hx, hleft, hlast⟩ := (h.accept rest).exec_efin hlen
    exact ⟨_, (hrun 1).trans (steps_sent (s := { s with ent := e, inputs := _, rsp := r }) rfl hok hx 0), hleft, hlast,
      rfl⟩

end Sys2Proof.Proofs
end

section
/-! MERGE and RDCHK case by case, and what EFIN, CKSUM and MERGE leave of the message and the flags
(42_entropy_mapper.md R130, R131). -/

namespace Sys2Proof.Machine

variable {s : State} {e e' : EntropyPath} {v : Chunk}

/-! ### MERGE -/

theorem mergeChecksum_of_last {k : Nat} (hk : k < 24) (hn : e.nchunk.toNat = k + 1) (hv : readChunk e k = some v) :
    mergeChecksum e = some
      ({ e with chunk := e.chunk.set k (some (v ||| e.cs.setWidth 11)) hk, mrg := true }, v ||| e.cs.setWidth 11) := by
  have hne : e.nchunk ≠ 0 := by rintro h; simp [h] at hn
  have hlast : e.nchunk.toNat - 1 = k := by omega
  rw [mergeChecksum, if_neg hne, hlast, hv]
  simp only [writeChunk_of_lt hk, Option.map_some]

theorem exec_merge_of_not_due (h : s.ent.csv = false ∨ s.ent.mrg = true) :
    exec .merge s = .next (raise .sequence s) := by
  refine if_pos ?_
  obtain h | h := h <;> simp [mergeDue, h]

theorem exec_merge_of_left_ne (hc : s.ent.csv = true) (hm : s.ent.mrg = false) (hl : s.ent.left ≠ s.ent.csbits) :
    exec .merge s = .next (raise .checksumMismatch s) := by
  rw [exec, execMerge, if_neg (by simp [mergeDue, hc, hm]), if_pos hl]

theorem exec_merge_of_mergeChecksum (hc : s.ent.csv = true) (hm : s.ent.mrg = false)
    (hl : s.ent.left = s.ent.csbits) (hx : mergeChecksum s.ent = some (e, v)) :
    exec .merge s = .next (respond false (v.setWidth 16) (s.setEnt e)) := by
  rw [exec, execMerge, if_neg (by simp [mergeDue, hc, hm]), if_neg (by simp [hl]), hx]

/-- Where the low n bits of a chunk are 0, OR with a value of n bits is addition. -/
theorem toNat_or_setWidth_of_low_zero {cs : Byte} {n : Nat} (hv : v.toNat % 2 ^ n = 0) (hcs : cs.toNat < 2 ^ n) :
    (v ||| cs.setWidth 11).toNat = v.toNat + cs.toNat := by
  obtain ⟨q, hq⟩ := Nat.dvd_of_mod_eq_zero hv
  rw [BitVec.toNat_or, BitVec.toNat_setWidth_of_le (by decide), hq, Nat.two_pow_add_eq_or_of_lt hcs]

/-! ### RDCHK -/

theorem toNat_encode_rdchk (i : BitVec 5) : (encode (.rdchk i)).toNat = 0x70000000 + i.toNat := by
  rw [toNat_encode, Instr.imm, BitVec.toNat_setWidth_of_le (by decide)]
  simp [Instr.op, Op.code]

theorem exec_rdchk_of_read {i : BitVec 5} (hi : i.toNat < s.ent.nchunk.toNat) (hv : readChunk s.ent i.toNat = some v) :
    exec (.rdchk i) s = .next (respond false (v.setWidth 16) s) := by
  rw [exec, execRdchk, if_neg (Nat.not_le_of_lt hi), hv]

/-! ### The message under the commands that store no byte -/

theorem message_flushChunk {p : Bool} (h : flushChunk e = some (e', p)) : message e' = message e := by
  obtain ⟨-, -, rfl⟩ | ⟨-, -, hc, rfl⟩ := flushChunk_cases h <;> exact message_congr rfl rfl

theorem csv_flushChunk {p : Bool} (h : flushChunk e = some (e', p)) : e'.csv = e.csv := by
  obtain ⟨-, -, rfl⟩ | ⟨-, -, hc, rfl⟩ := flushChunk_cases h <;> rfl

theorem message_recordDigest (d : Digest) (e : EntropyPath) : message (recordDigest d e) = message e :=
  message_congr rfl rfl

theorem message_mergeChecksum (h : mergeChecksum e = some (e', v)) : message e' = message e := by
  obtain ⟨-, hc, u, -, -, rfl⟩ := mergeChecksum_cases h
  exact message_congr rfl rfl

theorem mrg_mergeChecksum (h : mergeChecksum e = some (e', v)) : e'.mrg = true := by
  obtain ⟨-, hc, u, -, -, rfl⟩ := mergeChecksum_cases h
  rfl

end Sys2Proof.Machine
end

section
/-! What MERGE and RDCHK do (42_entropy_mapper.md R130, R131). -/

namespace Sys2Proof.Proofs

open Sys2Proof.Machine Sys2Proof.Safety

/-- Settles O29: the two faults come first; the last chunk is the one at NCHUNK-1 = k, and OR over free low bits is
addition (`toNat_or_setWidth_of_low_zero`). -/
theorem mergeInsertsChecksum : Obligations.MergeInsertsChecksum := by
  refine ⟨rfl, fun s => ⟨exec_merge_of_not_due, exec_merge_of_left_ne, fun v k hk hc hm hl hn hv => ⟨?_, ?_⟩⟩⟩
  · exact exec_merge_of_mergeChecksum hc hm hl (mergeChecksum_of_last hk hn hv)
  · exact toNat_or_setWidth_of_low_zero

/-- Settles O30: an index from NCHUNK on and an absent entry fault alike (`exec_rdchk_of_bad`), and any other is
answered. -/
theorem rdchkReadsChunk : Obligations.RdchkReadsChunk := fun _ i =>
  ⟨toNat_encode_rdchk i, fun h => exec_rdchk_of_bad (.inl h), fun h => exec_rdchk_of_bad (.inr h),
    fun _ => exec_rdchk_of_read⟩

end Sys2Proof.Proofs
end

section
/-! The last chunk of a stream that ends with checksum bits, and the number of chunks for the five valid lengths
(42_entropy_mapper.md R132, R133). -/

namespace Sys2Proof.Safety

theorem bitsValue_lt (l : List Bool) : bitsValue l < 2 ^ l.length := by
  induction l with
  | nil => simp [bitsValue]
  | cons b l ih =>
    have hb : b.toNat * 2 ^ l.length ≤ 1 * 2 ^ l.length := Nat.mul_le_mul_right _ b.toNat_le
    rw [bitsValue_cons, List.length_cons, Nat.pow_succ]
    omega

/-- The chunk that the k checksum bits complete is the sum of what comes before them, moved up k bits, and CS. -/
theorem toNat_chunkAt_append_checksumStream {l : List Bool} {j k : Nat} {cs : Byte} (hk : k ≤ 11)
    (h : l.length + k = 11 * (j + 1)) (hcs : cs.toNat < 2 ^ k) :
    (chunkAt (l ++ checksumStream cs k) j).toNat = bitsValue (l.drop (11 * j)) * 2 ^ k + cs.toNat := by
  have hlen : (l.drop (11 * j) ++ checksumStream cs k).length = 11 := by
    rw [List.length_append, List.length_drop, length_checksumStream]
    omega
  have hlt := bitsValue_lt (l.drop (11 * j) ++ checksumStream cs k)
  rw [hlen] at hlt
  rw [chunkAt_append_of_straddle hk h, List.take_of_length_le (by simp), BitVec.toNat_ofNat, Nat.mod_eq_of_lt hlt,
    bitsValue_append, bitsValue_checksumStream, Nat.mod_eq_of_lt hcs,
    length_checksumStream]

/-- For a valid length the entropy and checksum bits fill a whole number of chunks. -/
theorem chunkCount_of_valid {n : Nat} (hn : n ∈ [16, 20, 24, 28, 32]) :
    11 * ((8 * n + 10) / 11) = 8 * n + n / 4 ∧ (8 * n + 10) / 11 ∈ [12, 15, 18, 21, 24] := by
  fin_cases hn <;> decide

end Sys2Proof.Safety
end

section
/-! The mnemonic sequence: EFIN, CKSUM and MERGE after the bytes (42_entropy_mapper.md R132, R133;
70_reset_and_hazards.md R174). -/

namespace Sys2Proof.Proofs

open Sys2Proof.Machine Sys2Proof.Safety

variable {s : State} {m : List Byte}

/-- The entropy path holds the bytes m, in whatever phase: its invariants hold, and m is what EBUF holds. -/
structure HoldsBytes (s : State) (m : List Byte) : Prop where
  inv : EntropyInv s.ent
  streams : StreamInv s
  message : message s.ent = some m

/-- EFIN after the bytes m leads to the phase of CKSUM. -/
theorem HasTaken.exec_efin_finished (h : HasTaken s m) :
    ∃ e r, exec .efin s = .next { s with ent := e, rsp := r } ∧ HoldsBytes { s with ent := e, rsp := r } m ∧
      e.fin = true ∧ e.csv = false := by
  obtain ⟨⟨e, p⟩, hflush⟩ := Option.isSome_iff_exists.1 (h.inv.isSome_flushChunk h.unfinished)
  obtain ⟨hcsv, -⟩ := h.inv.unsummed_of_open h.unfinished
  refine ⟨e, _, exec_efin_of_flushChunk h.unfinished hflush, ?_, flushChunk_fin hflush,
    (csv_flushChunk hflush).trans hcsv⟩
  exact {
    inv := h.inv.flushChunk h.unfinished hflush
    streams := (h.streams.flushChunk h.inv h.unfinished hflush).of_same rfl rfl
    message := (message_flushChunk hflush).trans h.message }

namespace HoldsBytes

/-- Neither the host's events nor the response port is part of the path. -/
theorem accept (h : HoldsBytes s m) (rest : List HostEvent) : HoldsBytes (accept rest s) m :=
  ⟨h.inv, h.streams.of_same rfl rfl, h.message⟩

theorem elen (h : HoldsBytes s m) : s.ent.elen.toNat = m.length := (length_of_message h.message).symm

/-- CKSUM leads to the phase of MERGE. -/
theorem exec_cksum (h : HoldsBytes s m) (hf : s.ent.fin = true) (hc : s.ent.csv = false)
    (hlen : m.length ∈ [16, 20, 24, 28, 32]) :
    ∃ e r, exec .cksum s = .next { s with ent := e, rsp := r } ∧ HoldsBytes { s with ent := e, rsp := r } m ∧
      e.csv = true ∧ e.mrg = false := by
  have hv : validEntropyLen s.ent.elen.toNat = true := (validEntropyLen_iff _).2 (h.elen ▸ hlen)
  have hmrg : s.ent.mrg = false := by
    by_contra hmrg
    simp [h.inv.merged (by simpa using hmrg)] at hc
  refine ⟨_, _, exec_cksum_of_message hf hc hv h.message, ?_, rfl, hmrg⟩
  exact {
    inv := h.inv.recordDigest hf hv _
    streams := (h.streams.recordDigest h.inv hf hc h.message).of_same rfl rfl
    message := (message_recordDigest _ _).trans h.message }

/-- MERGE leads to the last phase: LEFT and CSBITS agree (40_checksum.md R111). -/
theorem exec_merge (h : HoldsBytes s m) (hc : s.ent.csv = true) (hm : s.ent.mrg = false) :
    ∃ e r, exec .merge s = .next { s with ent := e, rsp := r } ∧ HoldsBytes { s with ent := e, rsp := r } m ∧
      e.mrg = true := by
  obtain ⟨-, -, -, hleft, -⟩ := h.inv.summed hc
  obtain ⟨⟨e, v⟩, hmerge⟩ := Option.isSome_iff_exists.1 (h.inv.isSome_mergeChecksum hc)
  refine ⟨e, _, exec_merge_of_mergeChecksum hc hm hleft.symm hmerge, ?_, mrg_mergeChecksum hmerge⟩
  exact {
    inv := h.inv.mergeChecksum hc hmerge
    streams := (h.streams.mergeChecksum h.inv hc hm hmerge).of_same rfl rfl
    message := (message_mergeChecksum hmerge).trans h.message }

/-! ### The merged path -/

theorem checksum_of_merged (h : HoldsBytes s m) (hm : s.ent.mrg = true) :
    s.ent.csbits.toNat = m.length / 4 ∧ s.ent.cs.toNat < 2 ^ (m.length / 4) ∧
      s.ent.cs.toNat = (hashDigest s.hashUnit m).toNat / 2 ^ 248 / 2 ^ (8 - m.length / 4) := by
  have hc := h.inv.merged hm
  obtain ⟨-, -, hbits, -, hlt, hcs⟩ := h.inv.summed hc
  rw [h.elen] at hbits
  rw [hbits] at hlt hcs
  rw [h.streams.digest m h.message hc, toNat_digestMsb] at hcs
  exact ⟨hbits, hlt, hcs⟩

theorem nchunk_of_merged (h : HoldsBytes s m) (hm : s.ent.mrg = true) :
    11 * s.ent.nchunk.toNat = 8 * m.length + m.length / 4 ∧ s.ent.nchunk.toNat ∈ [12, 15, 18, 21, 24] := by
  obtain ⟨hf, hlen, -⟩ := h.inv.summed (h.inv.merged hm)
  obtain ⟨-, -, hn, -⟩ := h.inv.finished hf
  rw [hn, ← h.elen]
  exact chunkCount_of_valid hlen

theorem readChunk_of_merged (h : HoldsBytes s m) (hm : s.ent.mrg = true) {j : Nat} (hj : j < s.ent.nchunk.toNat) :
    readChunk s.ent j = some (chunkAt (streamBits m ++ checksumStream s.ent.cs (m.length / 4)) j) := by
  obtain ⟨hbits, -⟩ := h.checksum_of_merged hm
  rw [h.streams.chunks m h.message j hj, streamTail, if_pos hm, hbits]

theorem readChunk_last_of_merged (h : HoldsBytes s m) (hm : s.ent.mrg = true) :
    ∃ v : Chunk, readChunk s.ent (s.ent.nchunk.toNat - 1) = some v ∧
      v.toNat = bitsValue ((streamBits m).drop (8 * m.length - (11 - m.length / 4))) * 2 ^ (m.length / 4) +
        s.ent.cs.toNat := by
  obtain ⟨hbits, hcs, -⟩ := h.checksum_of_merged hm
  obtain ⟨hfill, hmem⟩ := h.nchunk_of_merged hm
  have hpos : 0 < s.ent.nchunk.toNat := Nat.pos_of_ne_zero fun h0 => by simp [h0] at hmem
  have helen := h.elen ▸ h.inv.counts.1
  have hstart : 8 * m.length - (11 - m.length / 4) = 11 * (s.ent.nchunk.toNat - 1) := by omega
  refine ⟨_, h.readChunk_of_merged hm (by omega), ?_⟩
  rw [hstart]
  exact toNat_chunkAt_append_checksumStream (by omega) (by rw [length_streamBits]; omega) hcs

end HoldsBytes

/-- EFIN, CKSUM and MERGE, sent one after the other once the bytes m are taken. -/
theorem HasTaken.steps_finish {rest : List HostEvent} (h : HasTaken s m) (hok : s.flt.fault = false)
    (hlen : m.length ∈ [16, 20, 24, 28, 32]) (hs : s.inputs = sends [.efin, .cksum, .merge] ++ rest) :
    ∃ e r, steps 3 s = .next { s with ent := e, inputs := rest, rsp := r } ∧
      HoldsBytes { s with ent := e, inputs := rest, rsp := r } m ∧ e.mrg = true := by
  obtain ⟨e₁, r₁, hx₁, h₁, hf, hc⟩ := (h.accept (sends [.cksum, .merge] ++ rest)).exec_efin_finished
  obtain ⟨e₂, r₂, hx₂, h₂, hc, hm⟩ := (h₁.accept (sends [.merge] ++ rest)).exec_cksum hf hc hlen
  obtain ⟨e₃, r₃, hx₃, h₃, hm⟩ := (h₂.accept rest).exec_merge hc hm
  refine ⟨e₃, r₃, (steps_sent hs hok hx₁ 2).trans ((steps_sent ?_ ?_ hx₂ 1).trans (steps_sent ?_ ?_ hx₃ 0)), h₃, hm⟩
  exacts [rfl, hok, rfl, hok]

/-- Settles O47: ECLR clears the path, the EBYTEs fill it (`HasTaken.steps_ebytes`), and the three commands after them
lead to the merged phase, where the invariants and the streams are the closed form. -/
theorem mnemonicSequence : Obligations.MnemonicSequence := by
  intro s bs rest hok hlen hs
  have hroom : ([] : List Byte).length + bs.length ≤ 32 := by
    simp only [List.mem_cons, List.not_mem_nil, or_false] at hlen
    rw [List.length_nil]
    omega
  have hinputs : s.inputs = .command (encode .eclr) ::
      (sends (bs.map .ebyte) ++ (sends [.efin, .cksum, .merge] ++ rest)) := by
    rw [hs, sends_append, List.append_assoc]
    rfl
  have hclear : HasTaken (respond false 0
      ((accept (sends (bs.map .ebyte) ++ (sends [.efin, .cksum, .merge] ++ rest)) s).setEnt .reset)) [] :=
    hasTaken_nil_of_reset rfl
  obtain ⟨e₁, r₁, hrun, (h₁ : HasTaken _ bs)⟩ := hclear.steps_ebytes bs hok hroom rfl
  obtain ⟨e, r, hfinish, h, hm⟩ := h₁.steps_finish hok hlen rfl
  obtain ⟨-, -, hcs⟩ := h.checksum_of_merged hm
  obtain ⟨hfill, hmem⟩ := h.nchunk_of_merged hm
  refine ⟨_, _, ?_, hcs, hfill, hmem, fun j => h.readChunk_of_merged hm, h.readChunk_last_of_merged hm, rfl, rfl, rfl⟩
  calc steps (bs.length + 4) s = steps (bs.length + 3) _ := steps_sent hinputs hok rfl _
    _ = steps 3 _ := hrun 3
    _ = _ := hfinish

end Sys2Proof.Proofs
end

section
/-! Legal wordlist lengths and N(L): the exponents of 2 and 3 in a length, and which powers of 6 it divides
(43_dice.md R139). -/

namespace Sys2Proof.Safety

open Sys2Proof.Machine

variable {len : Half} {a b n : Nat}

/-! ### The exponents -/

theorem exponent_pow_mul {p fuel m : Nat} (hp : 0 < p) (hm : ¬ p ∣ m) (ha : a ≤ fuel) :
    exponent p fuel (p ^ a * m) = a := by
  induction a generalizing fuel with
  | zero =>
    cases fuel with
    | zero => rfl
    | succ fuel => rw [Nat.pow_zero, Nat.one_mul, exponent, if_neg (mt Nat.dvd_of_mod_eq_zero hm)]
  | succ a ih =>
    obtain ⟨fuel, rfl⟩ := Nat.exists_eq_add_of_le' (Nat.one_le_of_lt ha)
    have hfactor : p ^ (a + 1) * m = p * (p ^ a * m) := by rw [Nat.pow_succ', Nat.mul_assoc]
    rw [exponent, hfactor, if_pos (Nat.mul_mod_right ..), Nat.mul_div_cancel_left _ hp, ih (Nat.le_of_succ_le_succ ha)]

theorem not_two_dvd_three_pow (b : Nat) : ¬ 2 ∣ 3 ^ b := fun h =>
  absurd (Nat.prime_two.dvd_of_dvd_pow h) (by decide)

theorem not_three_dvd_two_pow (a : Nat) : ¬ 3 ∣ 2 ^ a := fun h =>
  absurd (Nat.prime_three.dvd_of_dvd_pow h) (by decide)

/-- The exponents of a 16-bit length are within the bounds that `exponents` looks through. -/
theorem exponent_bounds (h : len.toNat = 2 ^ a * 3 ^ b) : a < 16 ∧ b < 11 := by
  have hlen := len.isLt
  have h2 : 2 ^ a ≤ len.toNat := h ▸ Nat.le_mul_of_pos_right _ (Nat.pow_pos (by decide))
  have h3 : 3 ^ b ≤ len.toNat := h ▸ Nat.le_mul_of_pos_left _ (Nat.two_pow_pos a)
  exact ⟨(Nat.pow_lt_pow_iff_right (a := 2) (by decide)).1 (by omega),
    (Nat.pow_lt_pow_iff_right (a := 3) (by decide)).1 (by omega)⟩

theorem exponents_of_eq (h : len.toNat = 2 ^ a * 3 ^ b) : exponents len = (a, b) := by
  obtain ⟨ha, hb⟩ := exponent_bounds h
  have h2 : exponent 2 15 len.toNat = a :=
    h ▸ exponent_pow_mul (by decide) (not_two_dvd_three_pow b) (Nat.le_of_lt_succ ha)
  have h3 : exponent 3 10 len.toNat = b := by
    rw [h, Nat.mul_comm]
    exact exponent_pow_mul (by decide) (not_three_dvd_two_pow a) (Nat.le_of_lt_succ hb)
  rw [exponents, h2, h3]

/-! ### Legal lengths -/

theorem legalLength_iff_exists : legalLength len = true ↔ 2 ≤ len.toNat ∧ ∃ a b, len.toNat = 2 ^ a * 3 ^ b := by
  constructor
  · intro h
    obtain ⟨h2, -, a, b, heq, -⟩ := legalWith_diceCount h
    exact ⟨h2, a, b, heq⟩
  · rintro ⟨h2, a, b, heq⟩
    simp [legalLength, exponents_of_eq heq, h2, ← heq]

theorem diceCount_of_eq (h : len.toNat = 2 ^ a * 3 ^ b) : diceCount len = max a b := by
  rw [diceCount, exponents_of_eq h]

theorem legalLength_iff_legal : legalLength len = true ↔ Legal len.toNat := by
  constructor
  · exact fun h => ⟨_, legalWith_diceCount h⟩
  · rintro ⟨n, h2, -, a, b, heq, -⟩
    exact legalLength_iff_exists.2 ⟨h2, a, b, heq⟩

/-- The machine's N(L) is the only N that a length is legal with. -/
theorem LegalWith.diceCount_eq (h : LegalWith len.toNat n) : diceCount len = n := by
  obtain ⟨-, -, a, b, heq, rfl⟩ := h
  exact diceCount_of_eq heq

/-! ### The list of R139 -/

theorem mem_legalLengths_of_bounds : ∀ a < 16, ∀ b < 11, 2 ≤ 2 ^ a * 3 ^ b ∧ 2 ^ a * 3 ^ b < 2 ^ 16 →
    2 ^ a * 3 ^ b ∈ legalLengths := by decide +kernel

theorem exists_pows_of_mem_legalLengths : ∀ l ∈ legalLengths,
    2 ≤ l ∧ l = 2 ^ exponent 2 15 l * 3 ^ exponent 3 10 l := by decide +kernel

theorem legalLength_iff_mem : legalLength len = true ↔ len.toNat ∈ legalLengths := by
  rw [legalLength_iff_exists]
  constructor
  · rintro ⟨h2, a, b, heq⟩
    obtain ⟨ha, hb⟩ := exponent_bounds heq
    rw [heq]
    exact mem_legalLengths_of_bounds a ha b hb ⟨heq ▸ h2, heq ▸ len.isLt⟩
  · intro h
    obtain ⟨h2, heq⟩ := exists_pows_of_mem_legalLengths _ h
    exact ⟨h2, _, _, heq⟩

/-! ### Divisors of powers of 6 -/

/-- 2^a · 3^b divides 6^n = 2^n · 3^n exactly when n covers both exponents. -/
theorem two_pow_mul_three_pow_dvd_iff : 2 ^ a * 3 ^ b ∣ 6 ^ n ↔ max a b ≤ n := by
  have hcop (i j : Nat) : Nat.Coprime (2 ^ i) (3 ^ j) := Nat.Coprime.pow i j (by decide)
  have hsix : 6 ^ n = 2 ^ n * 3 ^ n := Nat.mul_pow 2 3 n
  rw [hsix, max_le_iff]
  constructor
  · intro h
    have h2 : 2 ^ a ∣ 2 ^ n := (hcop a n).dvd_of_dvd_mul_right ((Nat.dvd_mul_right ..).trans h)
    have h3 : 3 ^ b ∣ 3 ^ n := (hcop n b).symm.dvd_of_dvd_mul_left ((Nat.dvd_mul_left ..).trans h)
    exact ⟨(Nat.pow_dvd_pow_iff_le_right (by decide)).1 h2, (Nat.pow_dvd_pow_iff_le_right (by decide)).1 h3⟩
  · rintro ⟨ha, hb⟩
    exact Nat.mul_dvd_mul (Nat.pow_dvd_pow 2 ha) (Nat.pow_dvd_pow 3 hb)

theorem LegalWith.dvd_six_pow_iff {l m : Nat} (h : LegalWith l n) : l ∣ 6 ^ m ↔ n ≤ m := by
  obtain ⟨-, -, a, b, rfl, rfl⟩ := h
  exact two_pow_mul_three_pow_dvd_iff

end Sys2Proof.Safety
end

section
/-! The statement on legal lengths (43_dice.md R139). -/

namespace Sys2Proof.Proofs

open Sys2Proof.Machine Sys2Proof.Safety

/-- Settles O45: the exponents of a 16-bit length are the ones that `exponents` finds, and 2^a · 3^b divides 6^N exactly
when N ≥ max(a, b). -/
theorem legalLengthsAndDiceCount : Obligations.LegalLengthsAndDiceCount := by
  refine ⟨by decide, fun len => ⟨legalLength_iff_exists, legalLength_iff_mem, fun a b _ => diceCount_of_eq,
    fun h => ⟨⟨?mem, ?least⟩, Nat.le_of_lt_succ (diceCount_lt len)⟩⟩⟩
  case mem =>
    have hl := legalWith_diceCount h
    exact ⟨hl.dice_pos, hl.dvd_six_pow_iff.2 le_rfl⟩
  case least => exact fun n ⟨_, hdvd⟩ => (legalWith_diceCount h).dvd_six_pow_iff.1 hdvd

end Sys2Proof.Proofs
end

section
/-! SETWL and DCHAR case by case, and what one digit does to the dice path (43_dice.md R140, R142). -/

namespace Sys2Proof.Machine

open Sys2Proof.Safety

variable {s : State} {d : DicePath} {len : Half} {c : Byte} {x : Nat}

/-! ### SETWL -/

theorem exec_setwl_of_legal (h : legalLength len = true) :
    exec (.setwl len) s = .next (respond false ((BitVec.ofNat 4 (diceCount len)).setWidth 16)
      (s.setDice { wlen := len, wlv := true, ndice := BitVec.ofNat 4 (diceCount len), dacc := 0, dcnt := 0, didx := 0,
                   dv := false })) := if_pos h

theorem exec_setwl_of_not_legal (h : ¬ legalLength len = true) :
    exec (.setwl len) s = .next (raise .badWlen s) := if_neg h

/-- N(L) loses no bit in NDICE. -/
theorem toNat_ofNat_diceCount (len : Half) : (BitVec.ofNat 4 (diceCount len)).toNat = diceCount len := by
  rw [BitVec.toNat_ofNat, Nat.mod_eq_of_lt (diceCount_lt len)]

/-! ### Die faces -/

theorem faceDigit_of_noise (h : c.toNat < 0x31 ∨ 0x36 < c.toNat) : faceDigit c = none := if_pos (by simpa using h)

theorem faceDigit_of_face (h1 : 0x31 ≤ c.toNat) (h6 : c.toNat ≤ 0x36) : faceDigit c = some (c.toNat - 0x31) :=
  if_neg (by simp; omega)

/-! ### One digit -/

/-- The dice path after a digit: it completes the word as the N-th digit, and extends it before (43_dice.md R140). -/
def takeDigit (d : DicePath) (x : Nat) : DicePath :=
  if d.dcnt.toNat + 1 = d.ndice.toNat then completeWord (d.dacc.toNat * 6 + x) d
  else extendWord (d.dacc.toNat * 6 + x) (d.dcnt.toNat + 1) d

theorem takeDigit_of_eq (h : d.dcnt.toNat + 1 = d.ndice.toNat) :
    takeDigit d x = completeWord (d.dacc.toNat * 6 + x) d := if_pos h

theorem takeDigit_of_ne (h : d.dcnt.toNat + 1 ≠ d.ndice.toNat) :
    takeDigit d x = extendWord (d.dacc.toNat * 6 + x) (d.dcnt.toNat + 1) d := if_neg h

/-- A digit leaves the configuration. -/
theorem takeDigit_config (d : DicePath) (x : Nat) :
    (takeDigit d x).wlv = d.wlv ∧ (takeDigit d x).wlen = d.wlen ∧ (takeDigit d x).ndice = d.ndice := by
  unfold takeDigit
  split <;> exact ⟨rfl, rfl, rfl⟩

/-! ### DCHAR -/

theorem exec_dchar_of_unconfigured (h : s.dice.wlv = false) : exec (.dchar c) s = .next (raise .sequence s) :=
  if_pos (by simp [h])

theorem exec_dchar_of_noise (hw : s.dice.wlv = true) (hc : faceDigit c = none) :
    exec (.dchar c) s = .next (respond false 0 s) := by
  rw [exec, execDchar, if_neg (by simp [hw]), hc]
  rfl

theorem exec_dchar_of_face (hw : s.dice.wlv = true) (hz : s.dice.wlen ≠ 0) (hc : faceDigit c = some x) :
    exec (.dchar c) s = .next
      (respond false (dcharData (decide (s.dice.dcnt.toNat + 1 = s.dice.ndice.toNat)) true)
        (s.setDice (takeDigit s.dice x))) := by
  rw [exec, execDchar, if_neg (by simp [hw]), hc]
  by_cases hlast : s.dice.dcnt.toNat + 1 = s.dice.ndice.toNat
  · simp only [if_pos hlast, if_neg hz, takeDigit_of_eq hlast, decide_eq_true hlast]
  · simp only [if_neg hlast, takeDigit_of_ne hlast, decide_eq_false hlast]

end Sys2Proof.Machine
end

section
/-! What one digit keeps of the dice path, and the shape of a dice-path command (43_dice.md R140, R142, R143). -/

namespace Sys2Proof.Safety

open Sys2Proof.Machine

variable {d : DicePath} {x : Nat}

theorem DiceInv.takeDigit (h : DiceInv d) (hw : d.wlv = true) (hx : x < 6) : DiceInv (takeDigit d x) := by
  by_cases hlast : d.dcnt.toNat + 1 = d.ndice.toNat
  · exact takeDigit_of_eq hlast ▸ h.completeWord hw _
  · exact takeDigit_of_ne hlast ▸ h.extendWord hw hlast hx

/-- A digit appended to the current word keeps DACC below 6^(DCNT + 1). -/
theorem DiceInv.appended_lt (h : DiceInv d) (hw : d.wlv = true) (hx : x < 6) :
    d.dacc.toNat * 6 + x < 6 ^ (d.dcnt.toNat + 1) := by
  obtain ⟨-, -, hacc, -⟩ := h.configured hw
  rw [Nat.pow_succ]
  omega

/-- DACC and DCNT lose no bit with a digit before the last of at most 15 (10_state.md R41, R42). -/
theorem DiceInv.toNat_extendWord (h : DiceInv d) (hw : d.wlv = true) (hc : d.dcnt.toNat + 1 ≠ d.ndice.toNat)
    (hx : x < 6) :
    (BitVec.ofNat 40 (d.dacc.toNat * 6 + x)).toNat = d.dacc.toNat * 6 + x ∧
      (BitVec.ofNat 4 (d.dcnt.toNat + 1)).toNat = d.dcnt.toNat + 1 := by
  obtain ⟨-, hcnt, -, -⟩ := h.configured hw
  have hn := d.ndice.isLt
  have hlt := h.appended_lt hw hx
  have hmax : 6 ^ (d.dcnt.toNat + 1) ≤ 6 ^ 14 := Nat.pow_le_pow_right (by decide) (by omega)
  simp only [BitVec.toNat_ofNat]
  omega

/-- The index of a completed word loses no bit in DIDX. -/
theorem DiceInv.toNat_index (h : DiceInv d) (hw : d.wlv = true) (v : Nat) :
    (BitVec.ofNat 16 (v % d.wlen.toNat)).toNat = v % d.wlen.toNat := by
  obtain ⟨-, -, -, hi⟩ := h.configured hw
  have hmod : v % d.wlen.toNat < d.wlen.toNat := Nat.mod_lt _ (by omega)
  rw [BitVec.toNat_ofNat, Nat.mod_eq_of_lt (hmod.trans d.wlen.isLt)]

end Sys2Proof.Safety
end

section
/-! What SETWL, DCHAR and DCLR do, and their frame (43_dice.md R140, R142, R143). -/

namespace Sys2Proof.Proofs

open Sys2Proof.Machine Sys2Proof.Safety

variable {s t : State}

theorem toNat_encode_setwl (len : Half) : (encode (.setwl len)).toNat = 0x80000000 + len.toNat := by
  rw [toNat_encode]
  simp [Instr.op, Op.code, Instr.imm]

theorem toNat_encode_dchar (c : Byte) : (encode (.dchar c)).toNat = 0x90000000 + c.toNat := by
  rw [toNat_encode, Instr.imm, BitVec.toNat_setWidth_of_le (by decide)]
  simp [Instr.op, Op.code]

/-- A dice-path command enters a fault, or responds with new elements of its own path. -/
theorem exec_dice_shape {i : Instr} (hi : isDiceCommand i = true) (h : exec i s = .next t) :
    (∃ c, t = raise c s) ∨ ∃ d data, t = respond false data (s.setDice d) := by
  cases i with
  | setwl len =>
    obtain ⟨-, h⟩ | ⟨-, h⟩ := execSetwl_cases h
    · exact .inl ⟨_, h⟩
    · exact .inr ⟨_, _, h⟩
  | dchar c =>
    obtain ⟨-, h⟩ | ⟨-, -, h⟩ | ⟨-, x, -, ⟨-, -, h⟩ | ⟨-, h⟩⟩ := execDchar_cases h
    · exact .inl ⟨_, h⟩
    · exact .inr ⟨s.dice, _, h⟩
    · exact .inr ⟨_, _, h⟩
    · exact .inr ⟨_, _, h⟩
  | dclr => exact .inr ⟨_, _, execDclr_cases h⟩
  | nop | rst | eclr | ebyte | efin | cksum | merge | rdchk | rdreg => cases hi

/-! ### The statements -/

/-- Settles O33: DCLR has one case. -/
theorem dclrDiscardsWord : Obligations.DclrDiscardsWord := ⟨rfl, fun _ => rfl⟩

/-- Settles O31: the machine's check of a length is legality (`legalLength_iff_legal`), and its N(L) is the only N that
a legal length has (`LegalWith.diceCount_eq`). -/
theorem setwlConfiguresLength : Obligations.SetwlConfiguresLength := by
  refine fun s len => ⟨toNat_encode_setwl len, fun n hn => ?legal, fun h => ?illegal⟩
  case legal =>
    refine ⟨BitVec.ofNat 4 (diceCount len), ?_, exec_setwl_of_legal (legalLength_iff_legal.2 ⟨n, hn⟩)⟩
    rw [toNat_ofNat_diceCount, hn.diceCount_eq]
  case illegal => exact exec_setwl_of_not_legal (mt legalLength_iff_legal.1 h)

/-- Settles O32: noise leaves the path, and a face takes its digit (`exec_dchar_of_face`), which the invariants keep
whole. -/
theorem dcharTakesFace : Obligations.DcharTakesFace := by
  refine fun s c => ⟨toNat_encode_dchar c, exec_dchar_of_unconfigured,
    fun hw hc => exec_dchar_of_noise hw (faceDigit_of_noise hc), fun hi hw h1 h6 => ?face⟩
  case face =>
    have hx := exec_dchar_of_face hw (hi.wlen_ne_zero hw) (faceDigit_of_face h1 h6)
    refine ⟨fun hlast => ⟨_, hi.toNat_index hw _, ?_⟩, fun hnext => ?_⟩
    · rw [hx, takeDigit_of_eq hlast, decide_eq_true hlast]
      rfl
    · obtain ⟨hacc, hcnt⟩ := hi.toNat_extendWord (x := c.toNat - 0x31) hw hnext (by omega)
      refine ⟨_, _, hacc, hcnt, ?_⟩
      rw [hx, takeDigit_of_ne hnext, decide_eq_false hnext]
      rfl

/-- Settles O36: a fault writes no element of the path; DCHAR and DCLR write the configuration in no case, and DCHAR
writes DIDX in the case of the last digit alone. -/
theorem diceCommandsFrame : Obligations.DiceCommandsFrame := by
  refine fun s t => ⟨fun i hi h => ?others, fun i hi h => ?config, fun c h hkeep => ?index⟩
  case others =>
    obtain ⟨c, rfl⟩ | ⟨d, data, rfl⟩ := exec_dice_shape hi h
    · exact ⟨rfl, rfl, rfl, .inr ⟨c, rfl⟩⟩
    · exact ⟨rfl, rfl, rfl, .inl rfl⟩
  case config =>
    obtain rfl | ⟨c, rfl⟩ := hi
    · rw [execDclr_cases h]
      exact ⟨rfl, rfl, rfl⟩
    · obtain ⟨-, rfl⟩ | ⟨-, -, rfl⟩ | ⟨-, x, -, ⟨-, -, rfl⟩ | ⟨-, rfl⟩⟩ := execDchar_cases h <;> exact ⟨rfl, rfl, rfl⟩
  case index =>
    obtain ⟨-, rfl⟩ | ⟨-, -, rfl⟩ | ⟨hw, x, hx, ⟨hlast, -, rfl⟩ | ⟨-, rfl⟩⟩ := execDchar_cases h
    · rfl
    · rfl
    · obtain hc | hc | hc := hkeep
      · simp [hx] at hc
      · simp [hw] at hc
      · exact absurd hlast hc
    · rfl

end Sys2Proof.Proofs
end

section
/-! A sequence of digits on the dice path: while the word is open, and as it completes (43_dice.md R140, R144, R145). -/

namespace Sys2Proof.Safety

open Sys2Proof.Machine

variable {d e : DicePath} {ds : List Nat}

theorem base6_append_singleton (ds : List Nat) (x : Nat) : base6 (ds ++ [x]) = base6 ds * 6 + x := by
  simp [base6]

theorem lt_six_of_mem_throws {cs : List Byte} {x : Nat} (h : x ∈ throws cs) : x < 6 := by
  obtain ⟨c, -, hc⟩ := List.mem_filterMap.1 h
  exact faceDigit_lt hc

theorem throws_cons_of_noise {c : Byte} (h : faceDigit c = none) (cs : List Byte) : throws (c :: cs) = throws cs :=
  List.filterMap_cons_none h

theorem throws_cons_of_face {c : Byte} {x : Nat} (h : faceDigit c = some x) (cs : List Byte) :
    throws (c :: cs) = x :: throws cs := List.filterMap_cons_some h

/-- From the path d with no digit taken, the digits ds lead to e, where the word is still open. -/
structure OpensWord (d : DicePath) (ds : List Nat) (e : DicePath) : Prop where
  inv : DiceInv e
  config : e.wlv = d.wlv ∧ e.wlen = d.wlen ∧ e.ndice = d.ndice
  dcnt : e.dcnt.toNat = ds.length
  dacc : e.dacc.toNat = base6 ds
  didx : e.didx = d.didx
  dv : d.dv = false → e.dv = false

/-- The empty accumulator of a word with no digit. -/
theorem opensWord_nil (h : DiceInv d) (hw : d.wlv = true) (h0 : d.dcnt = 0) : OpensWord d [] d where
  inv := h
  config := ⟨rfl, rfl, rfl⟩
  dcnt := by simp [h0]
  dacc := by
    obtain ⟨-, -, hacc, -⟩ := h.configured hw
    simpa [h0, base6] using hacc
  didx := rfl
  dv := id

theorem OpensWord.takeDigit {x : Nat} (h : OpensWord d ds e) (hw : d.wlv = true) (hx : x < 6)
    (hlen : ds.length + 1 < d.ndice.toNat) : OpensWord d (ds ++ [x]) (takeDigit e x) := by
  obtain ⟨hwlv, hwlen, hndice⟩ := h.config
  have hne : e.dcnt.toNat + 1 ≠ e.ndice.toNat := by rw [h.dcnt, hndice]; omega
  obtain ⟨hacc, hcnt⟩ := h.inv.toNat_extendWord (hwlv.trans hw) hne hx
  have hinv := h.inv.takeDigit (hwlv.trans hw) hx
  rw [takeDigit_of_ne hne] at hinv ⊢
  exact {
    inv := hinv
    config := h.config
    dcnt := by rw [List.length_append, ← h.dcnt]; exact hcnt
    dacc := by rw [base6_append_singleton, ← h.dacc]; exact hacc
    didx := h.didx
    dv := fun _ => rfl }

/-- Fewer than NDICE digits leave the word open. -/
theorem opensWord_foldl (h : DiceInv d) (hw : d.wlv = true) (h0 : d.dcnt = 0) (hds : ∀ x ∈ ds, x < 6)
    (hlen : ds.length < d.ndice.toNat) : OpensWord d ds (ds.foldl takeDigit d) := by
  induction ds using List.reverseRecOn with
  | nil => exact opensWord_nil h hw h0
  | append_singleton ds x ih =>
    rw [List.length_append] at hlen
    have hopen := ih (fun y hy => hds y (List.mem_append_left _ hy)) (Nat.lt_of_succ_lt hlen)
    rw [List.foldl_append]
    exact hopen.takeDigit hw (hds x (by simp)) hlen

/-- Completing a word writes every element but the configuration. -/
theorem completeWord_congr (h : e.wlv = d.wlv ∧ e.wlen = d.wlen ∧ e.ndice = d.ndice) (v : Nat) :
    completeWord v e = completeWord v d := by
  obtain ⟨hwlv, hwlen, hndice⟩ := h
  rw [completeWord, completeWord, hwlv, hwlen, hndice]

/-- Exactly NDICE digits complete the word: the last one finds a word that all the others have left open. -/
theorem foldl_takeDigit_of_length_eq (h : DiceInv d) (hw : d.wlv = true) (h0 : d.dcnt = 0) (hds : ∀ x ∈ ds, x < 6)
    (hlen : ds.length = d.ndice.toNat) : ds.foldl takeDigit d = completeWord (base6 ds) d := by
  obtain rfl | ⟨ds, x, rfl⟩ := List.eq_nil_or_concat' ds
  · obtain ⟨-, hcnt, -⟩ := h.configured hw
    simp [← hlen] at hcnt
  · rw [List.length_append, List.length_singleton] at hlen
    have hopen := opensWord_foldl h hw h0 (fun y hy => hds y (List.mem_append_left _ hy)) (by omega)
    obtain ⟨-, -, hndice⟩ := hopen.config
    have hlast : (ds.foldl takeDigit d).dcnt.toNat + 1 = (ds.foldl takeDigit d).ndice.toNat := by
      rw [hopen.dcnt, hndice, hlen]
    calc (ds ++ [x]).foldl takeDigit d
        = takeDigit (ds.foldl takeDigit d) x := List.foldl_append
      _ = completeWord (base6 (ds ++ [x])) (ds.foldl takeDigit d) := by
        rw [takeDigit_of_eq hlast, hopen.dacc, base6_append_singleton]
      _ = completeWord (base6 (ds ++ [x])) d := completeWord_congr hopen.config _

end Sys2Proof.Safety
end

section
/-! Runs of DCHARs: they take the digits that the characters throw, and nothing of the noise (43_dice.md R144, R145). -/

namespace Sys2Proof.Proofs

open Sys2Proof.Machine Sys2Proof.Safety

variable {s : State} {rest : List HostEvent}

/-- A run of DCHARs takes the thrown digits in order, whatever noise comes between them. -/
theorem steps_dchars (cs : List Byte) (hi : DiceInv s.dice) (hw : s.dice.wlv = true) (hok : s.flt.fault = false)
    (hs : s.inputs = sends (cs.map .dchar) ++ rest) :
    ∃ r, steps cs.length s =
      .next { s with dice := (throws cs).foldl takeDigit s.dice, inputs := rest, rsp := r } := by
  induction cs generalizing s with
  | nil =>
    obtain rfl : s.inputs = rest := hs
    exact ⟨s.rsp, rfl⟩
  | cons c cs ih =>
    cases hc : faceDigit c with
    | none =>
      have hx := exec_dchar_of_noise (s := accept (sends (cs.map .dchar) ++ rest) s) hw hc
      obtain ⟨r, hrun⟩ := ih (s := respond false 0 (accept (sends (cs.map .dchar) ++ rest) s)) hi hw hok rfl
      refine ⟨r, ?_⟩
      rw [List.length_cons, steps_sent hs hok hx, throws_cons_of_noise hc]
      exact hrun
    | some x =>
      have hx := exec_dchar_of_face (s := accept (sends (cs.map .dchar) ++ rest) s) hw (hi.wlen_ne_zero hw) hc
      obtain ⟨hwlv, -⟩ := takeDigit_config s.dice x
      obtain ⟨r, hrun⟩ := ih (s := respond false _
        ((accept (sends (cs.map .dchar) ++ rest) s).setDice (takeDigit s.dice x)))
        (hi.takeDigit hw (faceDigit_lt hc)) (hwlv.trans hw) hok rfl
      refine ⟨r, ?_⟩
      rw [List.length_cons, steps_sent hs hok hx, throws_cons_of_face hc]
      exact hrun

/-- The NDICE digits of a word leave its index in DIDX and an empty accumulator. -/
theorem steps_dchars_of_word (cs : List Byte) (hi : DiceInv s.dice) (hw : s.dice.wlv = true)
    (hok : s.flt.fault = false) (h0 : s.dice.dcnt = 0) (hs : s.inputs = sends (cs.map .dchar) ++ rest)
    (hlen : (throws cs).length = s.dice.ndice.toNat) :
    ∃ d r, steps cs.length s = .next { s with dice := d, inputs := rest, rsp := r } ∧ d.dv = true ∧ d.dcnt = 0 ∧
      d.dacc = 0 ∧ d.didx.toNat = base6 (throws cs) % s.dice.wlen.toNat := by
  obtain ⟨r, hrun⟩ := steps_dchars cs hi hw hok hs
  rw [foldl_takeDigit_of_length_eq hi hw h0 (fun _ => lt_six_of_mem_throws) hlen] at hrun
  exact ⟨_, r, hrun, rfl, rfl, rfl, hi.toNat_index hw _⟩

/-! ### The statements -/

/-- Settles O48: the noise is ignored (`steps_dchars`), and the last of the NDICE digits completes the word. -/
theorem diceWordCompletes : Obligations.DiceWordCompletes := by
  intro s cs rest hi hok hw h0 hs hlen
  obtain ⟨d, r, hrun, hdv, hcnt, hacc, hidx⟩ := steps_dchars_of_word cs hi hw hok h0 hs hlen
  exact ⟨_, hrun, hdv, hcnt, hacc, hidx, rfl, rfl, rfl⟩

/-- Settles O49: the noise is ignored (`steps_dchars`), and fewer than NDICE digits leave the word open
(`opensWord_foldl`). -/
theorem partialDiceWordStaysOpen : Obligations.PartialDiceWordStaysOpen := by
  intro s cs rest hi hok hw h0 hdv hs hlen
  obtain ⟨r, hrun⟩ := steps_dchars cs hi hw hok hs
  have hopen := opensWord_foldl hi hw h0 (fun _ => lt_six_of_mem_throws) hlen
  exact ⟨_, hrun, hopen.dv hdv, hopen.dcnt, hopen.dacc, hopen.didx, rfl⟩

end Sys2Proof.Proofs
end

section
/-! Base-6 values of n digits: each value below 6^n is that of one sequence, and the residues modulo a divisor of 6^n
are spread evenly (43_dice.md R138, R141). -/

namespace Sys2Proof.Safety

open Sys2Proof.Machine

variable {n l v : Nat}

theorem base6_eq_ofDigits (ds : List Nat) : base6 ds = Nat.ofDigits 6 ds.reverse := by
  simp [base6, Nat.ofDigits_eq_foldr, List.foldr_reverse, Nat.mul_comm, Nat.add_comm]

/-- The base-6 value of a sequence of throws. -/
def throwsValue (f : Fin n → Fin 6) : Nat := base6 (List.ofFn fun k => (f k).val)

theorem throwsValue_lt (f : Fin n → Fin 6) : throwsValue f < 6 ^ n := by
  have h := Nat.ofDigits_lt_base_pow_length (b := 6) (l := (List.ofFn fun k => (f k).val).reverse) (by decide)
    (by simp [List.mem_ofFn])
  simpa [throwsValue, base6_eq_ofDigits] using h

theorem throwsValue_injective : Function.Injective (throwsValue (n := n)) := by
  intro f g h
  rw [throwsValue, throwsValue, base6_eq_ofDigits, base6_eq_ofDigits] at h
  have hlist := Nat.ofDigits_inj_of_len_eq (b := 6) (by decide) (by simp) (by simp [List.mem_ofFn])
    (by simp [List.mem_ofFn]) h
  funext k
  exact Fin.ext (congrFun (List.ofFn_injective (List.reverse_injective hlist)) k)

/-- There are as many sequences of n throws as values below 6^n. -/
theorem exists_throwsValue_eq (hv : v < 6 ^ n) : ∃ f : Fin n → Fin 6, throwsValue f = v := by
  have hbij : Function.Bijective fun f : Fin n → Fin 6 => (⟨throwsValue f, throwsValue_lt f⟩ : Fin (6 ^ n)) :=
    (Fintype.bijective_iff_injective_and_card _).2
      ⟨fun f g h => throwsValue_injective (Fin.val_eq_of_eq h), by simp⟩
  obtain ⟨f, hf⟩ := hbij.2 ⟨v, hv⟩
  exact ⟨f, Fin.val_eq_of_eq hf⟩

theorem existsUnique_throwsValue_eq (hv : v < 6 ^ n) : ∃! f : Fin n → Fin 6, throwsValue f = v := by
  obtain ⟨f, hf⟩ := exists_throwsValue_eq hv
  exact ⟨f, hf, fun g hg => throwsValue_injective (hg.trans hf.symm)⟩

theorem card_throwsValue_mod_eq (hl : l ∣ 6 ^ n) (hv : v < l) :
    (Finset.univ.filter fun f : Fin n → Fin 6 => throwsValue f % l = v).card = 6 ^ n / l := by
  calc (Finset.univ.filter fun f : Fin n → Fin 6 => throwsValue f % l = v).card
      = ((Finset.range (6 ^ n)).filter (· ≡ v [MOD l])).card := by
        refine Finset.card_nbij throwsValue (fun f hf => ?_) throwsValue_injective.injOn (fun w hw => ?_)
        · simpa [Nat.ModEq, Nat.mod_eq_of_lt hv, throwsValue_lt] using hf
        · obtain ⟨hlt, hmod⟩ : w < 6 ^ n ∧ w % l = v := by simpa [Nat.ModEq, Nat.mod_eq_of_lt hv] using hw
          obtain ⟨f, rfl⟩ := exists_throwsValue_eq hlt
          exact ⟨f, by simpa using hmod, rfl⟩
    _ = Nat.count (· ≡ v [MOD l]) (6 ^ n) := (Nat.count_eq_card_filter_range _ _).symm
    _ = 6 ^ n / l := by simp [Nat.count_modEq_card _ (Nat.zero_lt_of_lt hv), Nat.mod_eq_zero_of_dvd hl]

/-- The characters of a sequence of throws throw it. -/
theorem throws_faces (f : Fin n → Fin 6) : throws (faces f) = List.ofFn fun k => (f k).val := by
  have hface : ∀ x : Fin 6, faceDigit (BitVec.ofNat 8 (0x31 + x.val)) = some x.val := by decide
  have hmap : faces f = (List.ofFn f).map fun x => BitVec.ofNat 8 (0x31 + x.val) := by simp [faces, Function.comp_def]
  rw [throws, hmap, List.filterMap_map]
  simp [Function.comp_def, hface, List.filterMap_eq_map']

end Sys2Proof.Safety
end

section
/-! The dice index is unbiased (43_dice.md R141). -/

namespace Sys2Proof.Proofs

open Sys2Proof.Machine Sys2Proof.Safety

variable {s : State}

/-- The index after the throws of one word. -/
theorem indexAfter_of_word (hi : DiceInv s.dice) (hw : s.dice.wlv = true) (hok : s.flt.fault = false)
    (h0 : s.dice.dcnt = 0) (f : Fin s.dice.ndice.toNat → Fin 6) :
    indexAfter s f = some (throwsValue f % s.dice.wlen.toNat) := by
  have hlen : (throws (faces f)).length = s.dice.ndice.toNat := by simp [throws_faces]
  have hchars : (faces f).length = s.dice.ndice.toNat := by simp [faces]
  obtain ⟨d, r, hrun, -, -, -, hidx⟩ := steps_dchars_of_word (s := s.setInputs (sends ((faces f).map .dchar)))
    (rest := []) (faces f) hi hw hok h0 (List.append_nil _).symm hlen
  rw [hchars] at hrun
  rw [indexAfter, hrun]
  simp only [hidx, throws_faces]
  rfl

/-- Settles O50: the index after the throws of a word is their value mod WLEN (`indexAfter_of_word`); each value below
6^N is that of one sequence of throws, and WLEN divides 6^N, so each residue has the same number of values. -/
theorem diceIndexIsUnbiased : Obligations.DiceIndexIsUnbiased := by
  refine ⟨fun s c hi hw hlen h1 h6 hlast => ?identity, fun s hi hok hw h0 => ⟨fun hlen v hv => ?one, fun v hv => ?even⟩,
    fun len n _ hlen v hv => existsUnique_throwsValue_eq (hlen ▸ hv),
    fun len n hl v hv => card_throwsValue_mod_eq (hl.dvd_six_pow_iff.2 le_rfl) hv⟩
  case identity =>
    obtain ⟨-, -, -, hface⟩ := dcharTakesFace s c
    obtain ⟨hcomplete, -⟩ := hface hi hw h1 h6
    obtain ⟨idx, hidx, hx⟩ := hcomplete hlast
    have hlt := hi.appended_lt (x := c.toNat - 0x31) hw (by omega)
    rw [hlast, ← hlen] at hlt
    exact ⟨_, hx, hidx.trans (Nat.mod_eq_of_lt hlt)⟩
  case one =>
    have hindex (f : Fin s.dice.ndice.toNat → Fin 6) : indexAfter s f = some (throwsValue f) := by
      rw [indexAfter_of_word hi hw hok h0, Nat.mod_eq_of_lt (hlen ▸ throwsValue_lt f)]
    simpa only [hindex, Option.some.injEq] using existsUnique_throwsValue_eq (hlen ▸ hv)
  case even =>
    obtain ⟨hl, -⟩ := hi.configured hw
    simpa only [indexAfter_of_word hi hw hok h0, Option.some.injEq] using
      card_throwsValue_mod_eq (hl.dvd_six_pow_iff.2 le_rfl) hv

end Sys2Proof.Proofs
end

section
/-! The word of a command without an operand, and the ill-formed words of its OP (30_encoding.md R82, R84). -/

namespace Sys2Proof

variable {i : Instr} {w : Word}

theorem opField_eq_of_shift {c : BitVec 4} (h : w >>> 28 = c.setWidth 32) : opField w = c := by
  rw [← BitVec.toNat_inj, ← opField_toNat, h, BitVec.toNat_setWidth_of_le (by decide)]

/-- A command without an operand leaves IMM 0 (30_encoding.md R82). -/
theorem Instr.imm_of_format_z (hz : i.op.format = .z) : i.imm = 0 := by
  cases i with
  | nop | rst | eclr | efin | cksum | merge | dclr => rfl
  | ebyte | rdchk | setwl | dchar | rdreg => cases hz

/-- The mask of a format without an operand leaves no bit free: each other word of the OP is ill-formed. -/
theorem not_wellFormed_of_ne_encode (hz : i.op.format = .z) (hw : w >>> 28 = i.op.code.setWidth 32)
    (hne : w ≠ encode i) : wellFormed w = false := by
  rw [← Bool.not_eq_true, wellFormed_iff_fields]
  rintro ⟨op, hop, hr, himm⟩
  have hfield := opField_eq_of_shift hw
  obtain rfl : i.op = op := by simpa [hfield] using hop
  rw [hz] at himm
  have himm0 : immField w = 0 := BitVec.and_allOnes.symm.trans himm
  apply hne
  rw [← fields_append w, hfield, hr, himm0, encode, Instr.imm_of_format_z hz]

end Sys2Proof
end

section
/-! The STATUS word as a number (10_state.md R48). -/

namespace Sys2Proof.Machine

theorem toNat_append_eq_add {m n : Nat} (x : BitVec m) (y : BitVec n) :
    (x ++ y).toNat = x.toNat * 2 ^ n + y.toNat := by
  rw [BitVec.toNat_append, ← Nat.shiftLeft_add_eq_or_of_lt y.isLt, Nat.shiftLeft_eq]

/-- The bits of STATUS, with the reserved ones 0 (10_state.md R48). -/
theorem statusWord_toNat (s : State) :
    (statusWord s).toNat =
      s.ent.fin.toNat + 2 * s.ent.csv.toNat + 4 * s.ent.mrg.toNat + 8 * s.dice.wlv.toNat + 16 * s.dice.dv.toNat +
        32 * s.flt.fault.toNat + 256 * s.flt.fcause.toNat := by
  simp only [statusWord, toNat_append_eq_add, BitVec.toNat_ofBool, BitVec.ofNat_eq_ofNat, BitVec.toNat_ofNat]
  omega

end Sys2Proof.Machine
end

section
/-! The control commands NOP, RST and RDREG (44_control.md R150 to R152). -/

namespace Sys2Proof.Proofs

open Sys2Proof.Machine Sys2Proof.Safety

variable {s : State} {i : Instr} {w : Word} {rest : List HostEvent}

/-- A command of the fault state runs from its word, with a fault pending or not (60_exceptions.md R164). -/
theorem step_encode (hs : s.inputs = .command w :: rest) (hw : w = encode i) (hrun : runsInFaultState i = true) :
    step s = exec i (accept rest s) :=
  step_execute hs (hw ▸ decodeEncodeRoundTrip i) (.inr hrun)

/-- Settles O21: word 0 is let through by the gate of the fault state; OP 0 has no operand, so its other words are
ill-formed. -/
theorem nopDoesNothing : Obligations.NopDoesNothing := by
  refine ⟨by decide, fun s => rfl, fun s w rest hs hop => ?_⟩
  have hill (hne : w ≠ 0) : wellFormed w = false := not_wellFormed_of_ne_encode (i := .nop) rfl hop hne
  exact ⟨fun hw => step_encode (i := .nop) hs hw rfl, fun hne => step_illegal hs (hill hne),
    fun hne hf => step_refuse_of_not_wellFormed hs hf (hill hne)⟩

/-- Settles O22: the gate lets RST's own word through; the other words of OP 1 are ill-formed, and a refusal keeps every
element. -/
theorem rstResets : Obligations.RstResets := by
  refine ⟨by decide, fun s => rfl, fun s w rest hs hop => ?_⟩
  have hill (hne : w ≠ 0x10000000) : wellFormed w = false := not_wellFormed_of_ne_encode (i := .rst) rfl hop hne
  exact ⟨fun hw => step_encode hs hw rfl, fun hne => step_illegal hs (hill hne),
    fun hne hf => ⟨_, step_refuse_of_not_wellFormed hs hf (hill hne), rfl, rfl, rfl, rfl⟩⟩

/-- Settles O23: the sixteen words are the encodings of RDREG in the order of the register map; a register's value is
zero-extended, STATUS is the sum of its bits, and DACC is cut in three. -/
theorem rdregReadsRegisterMap : Obligations.RdregReadsRegisterMap := by
  refine ⟨?words, fun s r => ⟨readReg r s, rfl, ?value⟩⟩
  case words =>
    have hwords : (List.range 16).map (fun n => BitVec.ofNat 32 (0xB0000000 + n)) =
        [Reg.status, .elen, .need, .acc, .nchunk, .left, .csbits, .dmsb, .cs, .wlen, .ndice, .dcnt, .daccLo, .daccMid,
          .daccHi, .didx].map (fun r => encode (.rdreg r)) := by decide
    have hdecode := congrArg (List.map decode) hwords
    rw [List.map_map, List.map_map] at hdecode
    exact hdecode.trans (List.map_congr_left fun r _ => decodeEncodeRoundTrip (.rdreg r))
  case value =>
    cases r with
    | status => exact statusWord_toNat s
    | wlen | didx => rfl
    | daccLo => exact BitVec.extractLsb'_toNat ..
    | daccMid => rw [readReg, BitVec.extractLsb'_toNat, Nat.shiftRight_eq_div_pow]
    | daccHi =>
      have hlt : s.dice.dacc.toNat / 2 ^ 32 < 2 ^ 8 := Nat.div_lt_of_lt_mul s.dice.dacc.isLt
      rw [readReg, BitVec.toNat_setWidth_of_le (by decide), BitVec.extractLsb'_toNat, Nat.shiftRight_eq_div_pow,
        Nat.mod_eq_of_lt hlt]
    | elen | need | acc | nchunk | left | csbits | dmsb | cs | ndice | dcnt =>
      exact BitVec.toNat_setWidth_of_le (by decide)

end Sys2Proof.Proofs
end

section
/-! Fault entry, the fault state and the return from it (60_exceptions.md R160 to R165). -/

namespace Sys2Proof.Proofs

open Sys2Proof.Machine Sys2Proof.Safety

variable {s t : State} {w : Word}

/-! ### Fault entry -/

/-- Settles O14: with no fault pending only fault entry sets FAULT; a reset clears it and every other answer keeps it
(`exec_shape`). -/
theorem faultEntryIsPrecise : Obligations.FaultEntryIsPrecise := by
  refine ⟨fun c s => rfl, fun i s t hok hx hfault => ?_⟩
  obtain hraise | ⟨-, rfl⟩ | ⟨e, d, data, rfl⟩ := exec_shape hx
  · exact hraise
  · cases hfault
  · cases hok.symm.trans hfault

/-- Settles O15: the table's seven codes, one for each cause. -/
theorem causeCodes : Obligations.CauseCodes := by
  refine ⟨rfl, rfl, rfl, rfl, rfl, rfl, rfl, fun c => ?_⟩
  cases c <;> decide

/-- Settles O16: the gate and the decoder come first (`stepFollowsDispatchRule`); then each command's own checks, in the
order its meaning makes them. -/
theorem firstFaultIsReported : Obligations.FirstFaultIsReported := by
  refine ⟨fun s w rest hs => ?pending, fun s w rest hs hf hw => step_illegal hs hw hf,
    fun s => ⟨fun b => ⟨exec_ebyte_of_fin, exec_ebyte_of_full⟩, exec_cksum_of_not_due, fun hf hc hlen => ?elen,
      exec_merge_of_not_due, exec_merge_of_left_ne, exec_efin_of_fin, fun hw c => exec_dchar_of_unconfigured hw,
      fun i hi => exec_rdchk_of_bad (.inl hi),
      fun len hlen => exec_setwl_of_not_legal (mt legalLength_iff_legal.1 hlen)⟩⟩
  case pending =>
    obtain ⟨-, hrefuse, -, -⟩ := stepFollowsDispatchRule s w rest hs
    exact hrefuse
  case elen => exact exec_cksum_of_invalid_elen hf hc (Bool.eq_false_iff.2 (mt (validEntropyLen_iff _).1 hlen))

/-! ### The fault state -/

/-- Settles O17: the gate refuses with the FCAUSE that stands; NOP, RDREG and RST pass it, and of these RST alone writes
the fault elements. -/
theorem faultStateRefuses : Obligations.FaultStateRefuses := by
  intro s w rest hs hf
  obtain ⟨-, hrefuse, -, -⟩ := stepFollowsDispatchRule s w rest hs
  refine ⟨hrefuse hf, fun hw => step_encode (i := .nop) hs hw rfl, fun r hd => ?rdreg, fun hw => ?rst⟩
  case rdreg => exact ⟨readReg r (accept rest s), step_execute hs hd (.inr rfl)⟩
  case rst => exact ⟨_, step_encode (i := .rst) hs hw rfl, rfl⟩

/-- A command word leaves the fault elements of a faulted block alone, unless it is the word of RST (60_exceptions.md
R164, R165). -/
theorem runWord_of_fault (hf : s.flt.fault = true) (h : runWord w s = .next t) :
    t.flt = s.flt ∨ (w = encode .rst ∧ t = respond false 0 (resetElements s)) := by
  obtain ⟨i, hd, hrun, hx⟩ | ⟨hok, -, -⟩ | ⟨-, -, rfl⟩ := runWord_cases h
  · obtain rfl | rfl | ⟨r, rfl⟩ := (runsInFaultState_iff i).1 (hrun.resolve_left (by simp [hf]))
    · obtain rfl := execNop_cases hx
      exact .inl rfl
    · exact .inr ⟨eq_encode_of_decode hd, execRst_cases hx⟩
    · obtain rfl := execRdreg_cases hx
      exact .inl rfl
  · cases hok.symm.trans hf
  · exact .inl rfl

/-- Settles O18: a step is a hardware reset or runs a command word, and of the words only RST's writes the fault elements
of a faulted block (`runWord_of_fault`). -/
theorem onlyResetLeavesFaultState : Obligations.OnlyResetLeavesFaultState := by
  intro s t h hf hne
  obtain ⟨a, rest, hs, rfl⟩ | ⟨w, rest, hs, hx⟩ := step_cases h
  · exact ⟨.inl ⟨a, rest, hs⟩, rfl, rfl, rfl⟩
  · obtain ⟨rfl, rfl⟩ := (runWord_of_fault (s := accept rest s) hf hx).resolve_left hne
    exact ⟨.inr ⟨rest, hs⟩, rfl, rfl, rfl⟩

end Sys2Proof.Proofs
end

section
/-! EBYTE's room in EBUF, and DCHAR on a face by whether the digit is the word's last; an earlier digit needs no WLEN
(41_chunker.md R120, 43_dice.md R140). -/

namespace Sys2Proof.Machine

variable {s : State} {e e' : EntropyPath} {b c : Byte} {done : Option Chunk} {x : Nat}

theorem elen_lt_of_takeByte (h : takeByte b e = some (e', done)) : e.elen.toNat < 32 := by
  unfold takeByte at h
  split at h
  · cases h
  · next happend =>
    obtain ⟨hlt, -⟩ := appendByte_cases happend
    exact hlt

theorem exec_dchar_of_last_digit (hw : s.dice.wlv = true) (hc : faceDigit c = some x)
    (hlast : s.dice.dcnt.toNat + 1 = s.dice.ndice.toNat) (hz : s.dice.wlen ≠ 0) :
    exec (.dchar c) s = .next (respond false 3 (s.setDice (completeWord (s.dice.dacc.toNat * 6 + x) s.dice))) := by
  rw [exec_dchar_of_face hw hz hc, takeDigit_of_eq hlast, decide_eq_true hlast]
  rfl

theorem exec_dchar_of_earlier_digit (hw : s.dice.wlv = true) (hc : faceDigit c = some x)
    (hnext : s.dice.dcnt.toNat + 1 ≠ s.dice.ndice.toNat) :
    exec (.dchar c) s = .next (respond false 1
      (s.setDice (extendWord (s.dice.dacc.toNat * 6 + x) (s.dice.dcnt.toNat + 1) s.dice))) := by
  rw [exec, execDchar, if_neg (by simp [hw]), hc]
  exact if_neg hnext

end Sys2Proof.Machine
end

section
/-! Reset, and the independence of the two paths (70_reset_and_hazards.md R171, R172, R176). -/

namespace Sys2Proof.Proofs

open Sys2Proof.Machine Sys2Proof.Safety

variable {i : Instr} {s1 s2 t1 : State}

/-! ### Reset -/

/-- Settles O19: the values stand in the definitions of the three reset states, and the arrays are filled with `none`. -/
theorem resetValues : Obligations.ResetValues :=
  ⟨rfl, rfl, rfl, rfl, rfl, rfl, rfl, rfl, rfl, rfl, rfl, rfl, rfl, rfl, rfl, rfl, rfl, rfl, rfl, rfl,
    readEbuf_reset, readChunk_reset⟩

/-- Settles O20: both go through `resetElements`, the word of RST with a fault pending or not (`step_encode`). -/
theorem resetsHaveTheSameEffect : Obligations.ResetsHaveTheSameEffect :=
  fun _ _ => ⟨fun _ hs => step_reset hs, fun hs => step_encode (i := .rst) hs rfl rfl⟩

/-! ### A command reads its own path -/

/-- On two states that agree on the entropy path and the hash port, an entropy-path command enters one fault, or writes
the same elements with the same response. -/
theorem exec_entropy_congr (hi : isEntropyCommand i = true) (hent : s1.ent = s2.ent)
    (hhash : s1.hashUnit = s2.hashUnit) (h : exec i s1 = .next t1) :
    (∃ c, t1 = raise c s1 ∧ exec i s2 = .next (raise c s2)) ∨
    ∃ e data, t1 = respond false data (s1.setEnt e) ∧ exec i s2 = .next (respond false data (s2.setEnt e)) := by
  obtain ⟨ent, dice, flt, inputs, rsp, hash⟩ := s2
  obtain rfl : s1.ent = ent := hent
  obtain rfl : s1.hashUnit = hash := hhash
  cases i with
  | eclr => exact .inr ⟨_, _, execEclr_cases h, rfl⟩
  | ebyte b =>
    obtain ⟨hf, h⟩ | ⟨hf, he, h⟩ | ⟨hf, -, e, done, ht, h⟩ := execEbyte_cases h
    · exact .inl ⟨_, h, exec_ebyte_of_fin hf⟩
    · exact .inl ⟨_, h, exec_ebyte_of_full hf he⟩
    · exact .inr ⟨_, _, h, exec_ebyte_of_takeByte hf (elen_lt_of_takeByte ht) ht⟩
  | efin =>
    obtain ⟨hf, h⟩ | ⟨hf, e, p, ht, h⟩ := execEfin_cases h
    · exact .inl ⟨_, h, exec_efin_of_fin hf⟩
    · exact .inr ⟨_, _, h, exec_efin_of_flushChunk hf ht⟩
  | cksum =>
    obtain ⟨hd, h⟩ | ⟨hf, hc, hv, h⟩ | ⟨hf, hc, hv, m, hm, h⟩ := execCksum_cases h
    · exact .inl ⟨_, h, exec_cksum_of_not_due hd⟩
    · exact .inl ⟨_, h, exec_cksum_of_invalid_elen hf hc hv⟩
    · exact .inr ⟨_, _, h, exec_cksum_of_message (s := ⟨s1.ent, dice, flt, inputs, rsp, s1.hashUnit⟩) hf hc hv hm⟩
  | merge =>
    obtain ⟨hd, h⟩ | ⟨hc, hm, hl, h⟩ | ⟨hc, hm, hl, e, v, ht, h⟩ := execMerge_cases h
    · exact .inl ⟨_, h, exec_merge_of_not_due hd⟩
    · exact .inl ⟨_, h, exec_merge_of_left_ne hc hm hl⟩
    · exact .inr ⟨_, _, h, exec_merge_of_mergeChecksum hc hm hl ht⟩
  | rdchk k =>
    obtain ⟨hbad, h⟩ | ⟨hk, v, hv, h⟩ := execRdchk_cases h
    · exact .inl ⟨_, h, exec_rdchk_of_bad hbad⟩
    · exact .inr ⟨s1.ent, _, h, exec_rdchk_of_read hk hv⟩
  | nop | rst | setwl | dchar | dclr | rdreg => cases hi

/-- On two states that agree on the dice path, a dice-path command enters one fault, or writes the same elements with the
same response. -/
theorem exec_dice_congr (hi : isDiceCommand i = true) (hdice : s1.dice = s2.dice) (h : exec i s1 = .next t1) :
    (∃ c, t1 = raise c s1 ∧ exec i s2 = .next (raise c s2)) ∨
    ∃ d data, t1 = respond false data (s1.setDice d) ∧ exec i s2 = .next (respond false data (s2.setDice d)) := by
  obtain ⟨_, dice, _, _, _, _⟩ := s2
  obtain rfl : s1.dice = dice := hdice
  cases i with
  | setwl len =>
    obtain ⟨hl, h⟩ | ⟨hl, h⟩ := execSetwl_cases h
    · exact .inl ⟨_, h, exec_setwl_of_not_legal (Bool.eq_false_iff.1 hl)⟩
    · exact .inr ⟨_, _, h, exec_setwl_of_legal hl⟩
  | dchar c =>
    obtain ⟨hw, h⟩ | ⟨hw, hc, h⟩ | ⟨hw, x, hc, ⟨hlast, hz, h⟩ | ⟨hnext, h⟩⟩ := execDchar_cases h
    · exact .inl ⟨_, h, exec_dchar_of_unconfigured hw⟩
    · exact .inr ⟨s1.dice, _, h, exec_dchar_of_noise hw hc⟩
    · exact .inr ⟨_, _, h, exec_dchar_of_last_digit hw hc hlast hz⟩
    · exact .inr ⟨_, _, h, exec_dchar_of_earlier_digit hw hc hnext⟩
  | dclr => exact .inr ⟨_, _, execDclr_cases h, rfl⟩
  | nop | rst | eclr | ebyte | efin | cksum | merge | rdchk | rdreg => cases hi

/-! ### Two commands of different paths -/

/-- Settles O37: the two-state clauses are `exec_entropy_congr` and `exec_dice_congr`. For the exchange, FAULT = 0 at the
end excludes both faults; each command then meets its own path as it was in the other order and leaves the other's. -/
theorem pathsAreIndependent : Obligations.PathsAreIndependent := by
  refine ⟨fun i s1 s2 t1 hi hent hhash h => ?entropy, fun i s1 s2 t1 hi hdice h => ?dice,
    fun i j s s1 s2 hi hj _ h1 h2 hok => ?exchange⟩
  case entropy =>
    obtain ⟨c, rfl, h'⟩ | ⟨e, data, rfl, h'⟩ := exec_entropy_congr hi hent hhash h
    · exact ⟨_, h', hent.symm, rfl, rfl⟩
    · exact ⟨_, h', rfl, rfl, rfl⟩
  case dice =>
    obtain ⟨c, rfl, h'⟩ | ⟨d, data, rfl, h'⟩ := exec_dice_congr hi hdice h
    · exact ⟨_, h', hdice.symm, rfl, rfl⟩
    · exact ⟨_, h', rfl, rfl, rfl⟩
  case exchange =>
    obtain ⟨hframe, -⟩ := entropyCommandsFrame s s1
    obtain ⟨hdice, -⟩ := hframe i hi h1
    obtain ⟨c, rfl, -⟩ | ⟨d, data, rfl, hj'⟩ := exec_dice_congr hj hdice h2
    · cases hok
    obtain ⟨c, rfl, -⟩ | ⟨e, data', rfl, hi'⟩ :=
      exec_entropy_congr (s1 := s) (s2 := respond false data (s.setDice d)) hi rfl rfl h1
    · cases hok
    exact ⟨_, _, hj', hi', rfl, rfl, rfl, rfl, rfl⟩

end Sys2Proof.Proofs
end
